-- ==== Sys2Proof/Word.lean ====
section
/-! DEFINITION. The words of the control core and its small closed types: hall vectors, directions,
channels, driver words, payloads, request words. -/

namespace Sys2Proof

/-- A byte of a fieldbus payload (30_encoding.md R90). -/
abbrev Byte := BitVec 8

/-- A 32-bit word: a signed duty, a duty value or a binary32 bit pattern (R76, R85, R91). -/
abbrev Word := BitVec 32

/-- A signed 64-bit tick count (10_state.md R22). -/
abbrev Position := BitVec 64

/-- A hall vector: bit 0 is sensor H1, bit 1 is H2, bit 2 is H3 (30_encoding.md R70). -/
abbrev HallVector := BitVec 3

/-- An output-enable mask: bit `c` enables the half-bridge of channel `c` (30_encoding.md R77). -/
abbrev OutputMask := BitVec 3

/-- A direction, measured or commanded (30_encoding.md R75). -/
inductive Dir where
  | cw
  | ccw
  deriving DecidableEq, Repr

/-- A channel of the phase driver, "channel∈{0,1,2}" (20_memory.md R50). -/
inductive Channel where
  | ch0
  | ch1
  | ch2
  deriving DecidableEq, Repr

/-- The three results of `classify` (30_encoding.md R74, R75: internal, no stored encoding). -/
inductive StepClass where
  | cw
  | ccw
  | invalid
  deriving DecidableEq, Repr

/-- The four operations of the phase-driver port (30_encoding.md R85). -/
inductive PortOp where
  | lock
  | unlock
  | cfg (mask : OutputMask)
  | duty (ch : Channel) (value : Word)
  deriving DecidableEq, Repr

/-- The four payload bytes `p[0..3]` of a frame, in transmission order (30_encoding.md R90). -/
structure Payload where
  p0 : Byte
  p1 : Byte
  p2 : Byte
  p3 : Byte
  deriving DecidableEq, Repr

/-- A word presented to the block: a request of format Q, 40 bits (30_encoding.md R79), or a driver
word of format P, 36 bits (R85). -/
inductive Request where
  | q (w : BitVec 40)
  | p (w : BitVec 36)
  deriving DecidableEq, Repr

end Sys2Proof
end

