-- ==== Sys2Proof/Config.lean ====
section
/-! DEFINITION. What an implementation fixes (00_scope.md R7 to R16) and the free values behind what
the spec leaves unspecified. -/

namespace Sys2Proof

/-- An entry of `COMM_TABLE`: the mask and the two active channels (30_encoding.md R78). -/
structure Entry where
  mask : OutputMask
  hi : Channel
  lo : Channel
  deriving DecidableEq, Repr

/-- The entries of one direction, one for each valid hall vector. -/
structure SectorTable where
  v1 : Entry
  v2 : Entry
  v3 : Entry
  v4 : Entry
  v5 : Entry
  v6 : Entry
  deriving DecidableEq, Repr

/-- `COMM_TABLE`, six sectors × two directions (00_scope.md R11). -/
structure CommTable where
  cw : SectorTable
  ccw : SectorTable
  deriving DecidableEq, Repr

/-- The parameters of a run (00_scope.md R9 to R13, R16; 10_state.md R40). -/
structure Config where
  pwmMax : Nat
  pwmVoltsRatio : Word
  motorSpeedConstant : Word
  table : CommTable
  hallReset : HallVector
  wireBigEndian : Bool
  idSetAccel : Nat
  idSpeedTlm : Nat
  deriving DecidableEq, Repr

/-- `CTRL_HZ`, the control and integration tick rate (00_scope.md R7). -/
def ctrlHz : Nat := 100

/-- `OBS_HZ`, the observer and telemetry rate (00_scope.md R7). -/
def obsHz : Nat := 20

/-- `TICKS_PER_REV`, encoder ticks per revolution (00_scope.md R7). -/
def ticksPerRev : Nat := 48

/-- `TWO_PI`, the binary32 nearest to 2π (44_environment_agents.md R191). -/
def twoPi : Word := 0x40C90FDB#32

/-- The mask bit of a channel, `1 << c` (30_encoding.md R77). -/
def Channel.bit : Channel → OutputMask
  | .ch0 => 0b001#3
  | .ch1 => 0b010#3
  | .ch2 => 0b100#3

/-- Conditions (a) and (b) of 42_commutation_engine.md R151 for one entry. -/
def Entry.wf (e : Entry) : Bool :=
  e.hi != e.lo && e.mask == (e.hi.bit ||| e.lo.bit)

/-- Condition (c) of R151 for one vector: the two directions drive different ordered pairs. -/
def Entry.differs (e f : Entry) : Bool :=
  !(e.hi == f.hi && e.lo == f.lo)

/-- `COMM_TABLE` is well formed: conditions (a), (b), (c) of R151 for all twelve keys. -/
def CommTable.wf (t : CommTable) : Bool :=
  t.cw.v1.wf && t.cw.v2.wf && t.cw.v3.wf && t.cw.v4.wf && t.cw.v5.wf && t.cw.v6.wf &&
  (t.ccw.v1.wf && t.ccw.v2.wf && t.ccw.v3.wf && t.ccw.v4.wf && t.ccw.v5.wf && t.ccw.v6.wf) &&
  (t.cw.v1.differs t.ccw.v1 && t.cw.v2.differs t.ccw.v2 && t.cw.v3.differs t.ccw.v3 &&
   t.cw.v4.differs t.ccw.v4 && t.cw.v5.differs t.ccw.v5 && t.cw.v6.differs t.ccw.v6)

/-- The constraints the spec puts on the parameters (00_scope.md R9, 42_commutation_engine.md R151). -/
def Config.wf (c : Config) : Bool :=
  decide (1 ≤ c.pwmMax) && decide (c.pwmMax ≤ 2 ^ 31 - 1) && c.table.wf

/-- `COMM_TABLE_REF`, the reference instance of R152, which the examples of the spec use. It is not
the board's table. -/
def CommTable.reference : CommTable where
  cw :=
    { v1 := ⟨0b011#3, .ch0, .ch1⟩
      v5 := ⟨0b101#3, .ch0, .ch2⟩
      v4 := ⟨0b110#3, .ch1, .ch2⟩
      v6 := ⟨0b011#3, .ch1, .ch0⟩
      v2 := ⟨0b101#3, .ch2, .ch0⟩
      v3 := ⟨0b110#3, .ch2, .ch1⟩ }
  ccw :=
    { v1 := ⟨0b011#3, .ch1, .ch0⟩
      v5 := ⟨0b101#3, .ch2, .ch0⟩
      v4 := ⟨0b110#3, .ch2, .ch1⟩
      v6 := ⟨0b011#3, .ch0, .ch1⟩
      v2 := ⟨0b101#3, .ch0, .ch2⟩
      v3 := ⟨0b110#3, .ch1, .ch2⟩ }

/-- `CFG_EX`, the configuration of the spec's examples (95_test_vectors.md, conventions). Its numbers
are the spec's own, not the board's. No definition of the machine uses it: it shows that a
well-formed configuration exists, and the tests run on it. The two identifiers have no value in the
spec's example. -/
def Config.cfgEx : Config where
  pwmMax := 255
  pwmVoltsRatio := 0x40000000#32
  motorSpeedConstant := 0x3F000000#32
  table := CommTable.reference
  hallReset := 0b001#3
  wireBigEndian := false
  idSetAccel := 1
  idSpeedTlm := 2

/-- A configuration that meets the spec's constraints. The defaults only show that one exists. -/
structure Board where
  cfg : Config := Config.cfgEx
  wf : cfg.wf = true := by decide
  deriving Inhabited

/-- The configuration of the machine. OPEN in the spec (92_eei_decisions.md D6, D9, D18 to D21): every
parameter is a name without a value, so this is a constant without a body. DESIGN CHOICE, log 1. -/
opaque Config.board : Board

/-- The free values: `freeValue n` is the n-th 32-bit value the spec leaves unspecified. No body.
DESIGN CHOICE, log 6 to log 9. -/
opaque Config.freeValue : Nat → Word

/-- The free sequences of driver words: what `COMMUTATE` of an invalid vector sends to the port, which
the spec does not state. No body. DESIGN CHOICE, log 6. -/
opaque Config.freePortOps : Nat → List PortOp

end Sys2Proof
end

