-- ==== Sys2Proof/Syntax.lean ====
section
/-! DEFINITION. The operations of the block, one constructor per row of spec/opcode_table.json. -/

namespace Sys2Proof

/-- The operations: thirteen requests (30_encoding.md R80) and the four driver operations (R85). -/
inductive Instr where
  /-- RESET, start-up initialisation (70_reset_and_hazards.md R241). -/
  | reset
  /-- SAMPLE, with the levels of the three sensor pins (41_position_encoder.md R120). -/
  | sample (h1 h2 h3 : Bool)
  /-- EDGE, with the current hall vector (41_position_encoder.md R123). -/
  | edge (cur : HallVector)
  /-- COMMUTATE, with a hall vector (42_commutation_engine.md R153, R154). -/
  | commutate (v : HallVector)
  /-- SETSPEED, with a signed duty (42_commutation_engine.md R155). -/
  | setspeed (d : Word)
  /-- TICK, the periodic controller update (43_speed_controller.md R172). -/
  | tick
  /-- SETACCEL, with a binary32 pattern (43_speed_controller.md R171). -/
  | setaccel (a : Word)
  /-- GETPOS (41_position_encoder.md R124). -/
  | getpos
  /-- GETDIR (41_position_encoder.md R125). -/
  | getdir
  /-- GETERR (41_position_encoder.md R126). -/
  | geterr
  /-- RESETERR (41_position_encoder.md R127). -/
  | reseterr
  /-- OBSERVE, the Speed Observer's periodic update (44_environment_agents.md R191). -/
  | observe
  /-- RXFRAME, with the declared length and the payload (44_environment_agents.md R194). -/
  | rxframe (len : BitVec 4) (p : Payload)
  /-- LOCK (40_phase_driver_port.md R101). -/
  | lock
  /-- UNLOCK (40_phase_driver_port.md R102). -/
  | unlock
  /-- CFG, with an output-enable mask (40_phase_driver_port.md R104). -/
  | cfg (mask : OutputMask)
  /-- DUTY, with a channel and a value (40_phase_driver_port.md R103). -/
  | duty (ch : Channel) (value : Word)
  deriving DecidableEq, Repr

end Sys2Proof
end

