-- ==== Sys2Proof/WellFormed.lean ====
section
/-! DEFINITION. The well-formed operations: the operand values the spec does not reserve. -/

namespace Sys2Proof

/-- "bytes beyond the declared length are 0" (30_encoding.md R80, row RXFRAME). -/
def Payload.zeroBeyond (len : BitVec 4) (p : Payload) : Bool :=
  (decide (1 ≤ len.toNat) || p.p0 == 0#8) && (decide (2 ≤ len.toNat) || p.p1 == 0#8) &&
  (decide (3 ≤ len.toNat) || p.p2 == 0#8) && (decide (4 ≤ len.toNat) || p.p3 == 0#8)

/-- The signed duty `0x80000000` (-2^31) is reserved (30_encoding.md R76, R94 (e)). -/
def signedDutyOk (d : Word) : Bool := d != 0x80000000#32

/-- The operations that a request word or a driver word of the spec stands for. Every other operand
value has a meaning: the types of the operands leave out channel 3 (R94 (a)). -/
def Instr.wf : Instr → Bool
  | .setspeed d => signedDutyOk d
  | .rxframe len p => p.zeroBeyond len
  | .reset => true
  | .sample _ _ _ => true
  | .edge _ => true
  | .commutate _ => true
  | .tick => true
  | .setaccel _ => true
  | .getpos => true
  | .getdir => true
  | .geterr => true
  | .reseterr => true
  | .observe => true
  | .lock => true
  | .unlock => true
  | .cfg _ => true
  | .duty _ _ => true

end Sys2Proof
end

