-- ==== Sys2Proof/Decode.lean ====
section
/-! DEFINITION. Decoding of request words (format Q) and driver words (format P), total on every word
and rejecting by name; then the encoder, written from the same tables (30_encoding.md R79, R80, R85,
R93 to R95). -/

namespace Sys2Proof

/-- Why a word is refused (30_encoding.md R93, R94). -/
inductive DecodeError where
  /-- `refuse(reserved_word)`: an undefined operation code, or an unused bit that is not zero. -/
  | reservedWord
  /-- `refuse(bad_channel)`: DUTY with channel 3. -/
  | badChannel
  /-- `refuse(bad_duty)`: SETSPEED with -2^31. -/
  | badDuty
  deriving DecidableEq, Repr

/-- The outcome of decoding a word. -/
inductive Decoded where
  | instr (i : Instr)
  | refuse (e : DecodeError)
  deriving DecidableEq, Repr

/-- An operation without operands: `aux` and `arg` must be zero. -/
def decodePlain (aux : BitVec 4) (arg : Word) (i : Instr) : Decoded :=
  if aux = 0#4 ∧ arg = 0#32 then .instr i else .refuse .reservedWord

/-- An operation with a 3-bit operand in `arg[2:0]`: `aux` and `arg[31:3]` must be zero. -/
def decodeVector (aux : BitVec 4) (arg : Word) (f : BitVec 3 → Instr) : Decoded :=
  if aux = 0#4 ∧ arg.extractLsb' 3 29 = 0#29 then .instr (f (arg.extractLsb' 0 3))
  else .refuse .reservedWord

/-- An operation with a 32-bit operand in `arg`: `aux` must be zero. -/
def decodeArg (aux : BitVec 4) (arg : Word) (f : Word → Instr) : Decoded :=
  if aux = 0#4 then .instr (f arg) else .refuse .reservedWord

/-- SAMPLE from its pin levels: `arg[0]`=H1, `arg[1]`=H2, `arg[2]`=H3 (R80). -/
def sampleOfPins (pins : BitVec 3) : Instr :=
  .sample (pins.getLsbD 0) (pins.getLsbD 1) (pins.getLsbD 2)

/-- SETSPEED: the reserved duty is refused by a name of its own (R94 (e)). A word with the reserved duty
and a non-zero `aux` is reserved by R93 too; that `aux` is tested first and gives the reason is a DESIGN
CHOICE (log 19). -/
def decodeSetspeed (aux : BitVec 4) (arg : Word) : Decoded :=
  if aux = 0#4 then
    if signedDutyOk arg then .instr (.setspeed arg) else .refuse .badDuty
  else .refuse .reservedWord

/-- `arg[7:0]`=`p[0]`, `arg[15:8]`=`p[1]`, `arg[23:16]`=`p[2]`, `arg[31:24]`=`p[3]` (R80, row RXFRAME). -/
def payloadOfArg (arg : Word) : Payload :=
  ⟨arg.extractLsb' 0 8, arg.extractLsb' 8 8, arg.extractLsb' 16 8, arg.extractLsb' 24 8⟩

/-- RXFRAME: `aux` is the declared length; payload bytes beyond it must be zero (R80). -/
def decodeRxframe (aux : BitVec 4) (arg : Word) : Decoded :=
  if (payloadOfArg arg).zeroBeyond aux then .instr (.rxframe aux (payloadOfArg arg))
  else .refuse .reservedWord

/-- Decode a request word of format Q: `op = w[39:36]`, `aux = w[35:32]`, `arg = w[31:0]` (R79, R80). -/
def decodeQ (w : BitVec 40) : Decoded :=
  let aux := w.extractLsb' 32 4
  let arg := w.extractLsb' 0 32
  match (w.extractLsb' 36 4).toNat with
  | 0x0 => decodePlain aux arg .reset
  | 0x1 => decodeVector aux arg sampleOfPins
  | 0x2 => decodeVector aux arg .edge
  | 0x3 => decodeVector aux arg .commutate
  | 0x4 => decodeSetspeed aux arg
  | 0x5 => decodePlain aux arg .tick
  | 0x6 => decodeArg aux arg .setaccel
  | 0x7 => decodePlain aux arg .getpos
  | 0x8 => decodePlain aux arg .getdir
  | 0x9 => decodePlain aux arg .geterr
  | 0xA => decodePlain aux arg .reseterr
  | 0xB => decodePlain aux arg .observe
  | 0xC => decodeRxframe aux arg
  | _ => .refuse .reservedWord

/-- A channel number: 3 is reserved (20_memory.md R50). -/
def channelOf (ch : BitVec 2) : Option Channel :=
  match ch.toNat with
  | 0 => some .ch0
  | 1 => some .ch1
  | 2 => some .ch2
  | _ => none

/-- DUTY: channel 3 is refused by a name of its own (R94 (a)). -/
def decodeDuty (ch : BitVec 2) (val : Word) : Decoded :=
  match channelOf ch with
  | some c => .instr (.duty c val)
  | none => .refuse .badChannel

/-- CFG: `ch` and `val[31:3]` must be zero (R85). -/
def decodeCfg (ch : BitVec 2) (val : Word) : Decoded :=
  if ch = 0#2 ∧ val.extractLsb' 3 29 = 0#29 then .instr (.cfg (val.extractLsb' 0 3))
  else .refuse .reservedWord

/-- LOCK and UNLOCK: `ch` and `val` must be zero (R85). -/
def decodePortPlain (ch : BitVec 2) (val : Word) (i : Instr) : Decoded :=
  if ch = 0#2 ∧ val = 0#32 then .instr i else .refuse .reservedWord

/-- Decode a driver word of format P: `dop = w[35:34]`, `ch = w[33:32]`, `val = w[31:0]` (R85). -/
def decodeP (w : BitVec 36) : Decoded :=
  let ch := w.extractLsb' 32 2
  let val := w.extractLsb' 0 32
  match (w.extractLsb' 34 2).toNat with
  | 0 => decodePortPlain ch val .lock
  | 1 => decodePortPlain ch val .unlock
  | 2 => decodeCfg ch val
  | _ => decodeDuty ch val

/-- Decode a word presented to the block. "A decoder reads `op` (or `dop`) and checks the unused bits;
nothing else is needed" (30_encoding.md R95). -/
def decode : Request → Decoded
  | .q w => decodeQ w
  | .p w => decodeP w

/-! ## The encoder -/

/-- A request word from its three fields (R79). -/
def wordQ (op aux : BitVec 4) (arg : Word) : Request := .q (op ++ aux ++ arg)

/-- A driver word from its three fields (R85). -/
def wordP (dop ch : BitVec 2) (val : Word) : Request := .p (dop ++ ch ++ val)

/-- A 3-bit operand in the low bits of the main operand. -/
def argOfVector (v : BitVec 3) : Word := 0#29 ++ v

/-- The pin levels as the low bits of the main operand (R80, row SAMPLE). -/
def argOfPins (h1 h2 h3 : Bool) : Word :=
  argOfVector (BitVec.ofBool h3 ++ BitVec.ofBool h2 ++ BitVec.ofBool h1)

/-- The payload bytes as the main operand (R80, row RXFRAME). -/
def argOfPayload (p : Payload) : Word := p.p3 ++ p.p2 ++ p.p1 ++ p.p0

/-- The number of a channel (20_memory.md R50). -/
def Channel.number : Channel → BitVec 2
  | .ch0 => 0#2
  | .ch1 => 1#2
  | .ch2 => 2#2

/-- The word of an operation (30_encoding.md R80, R85). -/
def encode : Instr → Request
  | .reset => wordQ 0x0#4 0#4 0#32
  | .sample h1 h2 h3 => wordQ 0x1#4 0#4 (argOfPins h1 h2 h3)
  | .edge cur => wordQ 0x2#4 0#4 (argOfVector cur)
  | .commutate v => wordQ 0x3#4 0#4 (argOfVector v)
  | .setspeed d => wordQ 0x4#4 0#4 d
  | .tick => wordQ 0x5#4 0#4 0#32
  | .setaccel a => wordQ 0x6#4 0#4 a
  | .getpos => wordQ 0x7#4 0#4 0#32
  | .getdir => wordQ 0x8#4 0#4 0#32
  | .geterr => wordQ 0x9#4 0#4 0#32
  | .reseterr => wordQ 0xA#4 0#4 0#32
  | .observe => wordQ 0xB#4 0#4 0#32
  | .rxframe len p => wordQ 0xC#4 len (argOfPayload p)
  | .lock => wordP 0#2 0#2 0#32
  | .unlock => wordP 1#2 0#2 0#32
  | .cfg mask => wordP 2#2 0#2 (argOfVector mask)
  | .duty ch value => wordP 3#2 ch.number value

/-- The operation a driver word performs, as an operation of the opcode table. -/
def PortOp.instr : PortOp → Instr
  | .lock => .lock
  | .unlock => .unlock
  | .cfg mask => .cfg mask
  | .duty ch value => .duty ch value

/-- The driver word, format P, of an operation of the port (30_encoding.md R85). -/
def PortOp.word (o : PortOp) : Request := encode o.instr

/-! ## The opcode table's numbering -/

/-- The word that an entry of the opcode table stands for, given its length and its bits. The table has
two formats and no tag: 36 bits are format P; a longer word is of format Q, but for a word that format
Q refuses and that is a defined driver word padded to whole bytes (log 16). -/
def tableRequest (nbits w : Nat) : Request :=
  let bits := w % 2 ^ nbits
  let asQ : Request := .q (BitVec.ofNat 40 bits)
  let asP : Request := .p (BitVec.ofNat 36 bits)
  if nbits ≤ 36 then asP
  else
    match decode asQ with
    | .instr _ => asQ
    | .refuse _ =>
      if bits < 2 ^ 36 then
        match decode asP with
        | .instr _ => asP
        | .refuse _ => asQ
      else asQ

/-- The operation in a decoding, if there is one. -/
def Decoded.instr? : Decoded → Option Instr
  | .instr i => some i
  | .refuse _ => none

/-- The operation the decoder reads from a word numbered as spec/opcode_table.json numbers it. -/
def decodeTableWord (nbits w : Nat) : Option Instr := (decode (tableRequest nbits w)).instr?

end Sys2Proof
end

