-- ==== Sys2Proof/Machine/State.lean ====
section
/-! DEFINITION. The state of the block (10_state.md R20 to R33), the reasons a step stops, and the
state right after reset (R42). -/

namespace Sys2Proof.Machine

/-- The encoder registers, the source's `EncoderState` (10_state.md R21 to R24). -/
structure Encoder where
  /-- `enc.prev`, the vector of the most recent processed edge (R21). -/
  prev : HallVector
  /-- `enc.pos`, the signed tick count (R22). -/
  pos : Position
  /-- `enc.dir`, the measured direction (R23). -/
  dir : Dir
  /-- `enc.err`, the sticky error flag (R24). -/
  err : Bool
  deriving DecidableEq, Repr

/-- The motion registers, the source's `MotionCommand` (10_state.md R25 to R27). -/
structure Motion where
  /-- `mot.accel`, the acceleration setpoint, binary32 (R25). -/
  accel : Word
  /-- `mot.speed`, the speed setpoint, binary32 (R26). -/
  speed : Word
  /-- `mot.vcmd`, the signed voltage command (R27). -/
  vcmd : Word
  deriving DecidableEq, Repr

/-- The commutation registers (10_state.md R28, R29). -/
structure Commutation where
  /-- `com.mag`, the commanded duty magnitude (R28). -/
  mag : BitVec 31
  /-- `com.dir`, the commanded direction (R29). -/
  dir : Dir
  deriving DecidableEq, Repr

/-- A duty register file, one register for each channel (10_state.md R32). -/
structure Duties where
  ch0 : Word
  ch1 : Word
  ch2 : Word
  deriving DecidableEq, Repr

/-- The registers of the phase-driver port (10_state.md R30 to R32). -/
structure Driver where
  /-- `drv.locked` (R30). -/
  locked : Bool
  /-- `drv.cfg_s`, the shadow mask (R31). -/
  cfgS : OutputMask
  /-- `drv.cfg_a`, the applied mask (R31). -/
  cfgA : OutputMask
  /-- `drv.duty_s[0..2]`, the shadow duties (R32). -/
  dutyS : Duties
  /-- `drv.duty_a[0..2]`, the applied duties (R32). -/
  dutyA : Duties
  deriving DecidableEq, Repr

/-- The Speed Observer's registers (10_state.md R33), no part of the core. -/
structure Observer where
  /-- `obs.prev`, the position read one period ago. -/
  prev : Position
  /-- `obs.speed`, the last computed speed, binary32. -/
  speed : Word
  deriving DecidableEq, Repr

/-- An outbound frame (44_environment_agents.md R193). -/
structure Frame where
  ident : Nat
  len : Nat
  payload : Payload
  deriving DecidableEq, Repr

/-- What an operation returns to its requester (30_encoding.md R81). -/
inductive Result where
  /-- SAMPLE: the hall vector. -/
  | vector (v : HallVector)
  /-- GETPOS: the 64-bit position. -/
  | position (p : Position)
  /-- GETDIR: one bit, CW = 0, CCW = 1. -/
  | direction (b : BitVec 1)
  /-- GETERR: one bit. -/
  | error (b : BitVec 1)
  /-- OBSERVE: the outbound frame. -/
  | frame (f : Frame)
  deriving DecidableEq, Repr

/-- Why the machine stops with a fault. -/
inductive Fault where
  /-- An operation other than RESET is issued before the first RESET, when every register is unwritten
  (70_reset_and_hazards.md R241; 93_implementation_defined.md U10). Raised by the step. Safe: the spec
  calls it a model fault, and the hardware goes on with values nobody knows. -/
  | unwrittenRegister
  deriving DecidableEq, Repr

/-- Why a request has no meaning. -/
inductive Refusal where
  /-- The operation has no meaning in this model. Raised by exec's arm alone. Safe. -/
  | notModelled (mnemonic : String)
  /-- `refuse(reserved_word)` (30_encoding.md R93). Raised by the step when the decoder refuses. Safe. -/
  | reservedWord
  /-- `refuse(bad_channel)` (R94 (a)). Raised by the step when the decoder refuses. Safe. -/
  | badChannel
  /-- `refuse(bad_duty)` (R94 (e)). Raised by the step when the decoder refuses and by SETSPEED. Safe. -/
  | badDuty
  deriving DecidableEq, Repr

/-- The state: the registers of the block and of the observer, the parameters of the run (log 1), and
the model's own fields: the requests presented and not yet served (log 2), the outputs of the most
recent operation (log 4), whether RESET has been issued (log 11) and the counter behind the free values
(log 9). -/
structure State where
  cfg : Config
  enc : Encoder
  mot : Motion
  com : Commutation
  drv : Driver
  obs : Observer
  started : Bool
  draws : Nat
  requests : List Request
  emitted : List PortOp
  result : Option Result
  deriving DecidableEq, Repr

/-- The state right after reset under the configuration `c`: the table of 10_state.md R42, with nothing
presented and nothing returned (log 12). -/
def State.resetWith (c : Config) : State where
  cfg := c
  enc := { prev := c.hallReset, pos := 0#64, dir := .cw, err := false }
  mot := { accel := 0#32, speed := 0#32, vcmd := 0#32 }
  com := { mag := 0#31, dir := .ccw }
  drv :=
    { locked := false, cfgS := 0#3, cfgA := 0#3, dutyS := ⟨0#32, 0#32, 0#32⟩
      dutyA := ⟨0#32, 0#32, 0#32⟩ }
  obs := { prev := 0#64, speed := 0#32 }
  started := true
  draws := 0
  requests := []
  emitted := []
  result := none

/-- The machine right after reset, under the board's configuration (log 1). -/
def State.reset : State := State.resetWith Config.board.cfg

end Sys2Proof.Machine
end

