-- ==== Sys2Proof/Machine/Operands.lean ====
section
/-! DEFINITION. The operand forms: hall vector, transition code, signed duty, channel registers,
commutation key, wire payload, and the free values narrowed to the ranges the spec gives them. -/

namespace Sys2Proof.Machine

/-- `v = H3 ++ H2 ++ H1` (30_encoding.md R70). -/
def hallVector (h1 h2 h3 : Bool) : HallVector :=
  BitVec.ofBool h3 ++ BitVec.ofBool h2 ++ BitVec.ofBool h1

/-- The transition code `prev ++ cur` (30_encoding.md R72). -/
def transitionCode (prev cur : HallVector) : BitVec 6 := prev ++ cur

/-- A direction as one bit, CW = 0, CCW = 1 (30_encoding.md R75). -/
def dirBit : Dir → BitVec 1
  | .cw => 0#1
  | .ccw => 1#1

/-- `mag = abs(d)`, 31 bits (30_encoding.md R76). -/
def dutyMagnitude (d : Word) : BitVec 31 := (if d.msb then -d else d).setWidth 31

/-- `dir = CW` if `d < 0`, else `CCW` (30_encoding.md R76). -/
def dutyDirection (d : Word) : Dir := if d.msb then .cw else .ccw

/-- The duty register of a channel (00_scope.md R17). -/
def dutyGet (d : Duties) : Channel → Word
  | .ch0 => d.ch0
  | .ch1 => d.ch1
  | .ch2 => d.ch2

/-- Write the duty register of a channel; the other two are unchanged (40_phase_driver_port.md R103). -/
def dutySet (d : Duties) (c : Channel) (v : Word) : Duties :=
  match c with
  | .ch0 => { d with ch0 := v }
  | .ch1 => { d with ch1 := v }
  | .ch2 => { d with ch2 := v }

/-- `min(value, PWM_MAX)` (40_phase_driver_port.md R103). -/
def clampDuty (pwmMax : Nat) (value : Word) : Word :=
  if value.toNat ≤ pwmMax then value else BitVec.ofNat 32 pwmMax

/-- The half of `COMM_TABLE` of a direction. -/
def sectors (t : CommTable) : Dir → SectorTable
  | .cw => t.cw
  | .ccw => t.ccw

/-- `COMM_TABLE(dir, v)`: no entry for 000 or 111 (42_commutation_engine.md R151). -/
def tableEntry (t : CommTable) (dir : Dir) (v : HallVector) : Option Entry :=
  match v.toNat with
  | 1 => some (sectors t dir).v1
  | 2 => some (sectors t dir).v2
  | 3 => some (sectors t dir).v3
  | 4 => some (sectors t dir).v4
  | 5 => some (sectors t dir).v5
  | 6 => some (sectors t dir).v6
  | _ => none

/-- The four payload bytes of a 32-bit pattern in transmission order (30_encoding.md R90). -/
def payloadOf (bigEndian : Bool) (b : Word) : Payload :=
  if bigEndian then
    ⟨b.extractLsb' 24 8, b.extractLsb' 16 8, b.extractLsb' 8 8, b.extractLsb' 0 8⟩
  else ⟨b.extractLsb' 0 8, b.extractLsb' 8 8, b.extractLsb' 16 8, b.extractLsb' 24 8⟩

/-- The 32-bit pattern of a payload (44_environment_agents.md R194). -/
def wordOfPayload (bigEndian : Bool) (p : Payload) : Word :=
  if bigEndian then p.p0 ++ p.p1 ++ p.p2 ++ p.p3 else p.p3 ++ p.p2 ++ p.p1 ++ p.p0

/-! ## Free values in the ranges the spec gives -/

/-- A mask of any value (42_commutation_engine.md R154; log 6). -/
def freeMask (n : Nat) : OutputMask := (Config.freeValue n).setWidth 3

/-- A duty of any value in [0, PWM_MAX] (42_commutation_engine.md R154; log 6). -/
def freeDuty (pwmMax n : Nat) : Word :=
  BitVec.ofNat 32 ((Config.freeValue n).toNat % (pwmMax + 1))

/-- A NaN of any sign and payload (43_speed_controller.md R174; log 8). -/
def freeNaN (n : Nat) : Word :=
  let v := Config.freeValue n
  let frac := v.extractLsb' 0 23
  v.extractLsb' 31 1 ++ 0xFF#8 ++ (if frac = 0#23 then 1#23 else frac)

/-- A signed value of any kind in [-(2^31 - 1), 2^31 - 1] (43_speed_controller.md R173; log 7). -/
def freeVcmd (n : Nat) : Word :=
  let v := Config.freeValue n
  if signedDutyOk v then v else 0#32

end Sys2Proof.Machine
end

