-- ==== Sys2Proof/Machine/Flags.lean ====
section
/-! DEFINITION. The hall decoder and the position accumulator: the computation of the flags `enc.dir`
and `enc.err` and of the next position (30_encoding.md R74; 41_position_encoder.md R121, R122). -/

namespace Sys2Proof.Machine

/-- `classify`: the twelve valid codes, six for CW and six for CCW; every other code is INVALID
(30_encoding.md R74). -/
def classify (code : BitVec 6) : StepClass :=
  match code.toNat with
  | 13 => .cw
  | 44 => .cw
  | 38 => .cw
  | 50 => .cw
  | 19 => .cw
  | 25 => .cw
  | 41 => .ccw
  | 37 => .ccw
  | 52 => .ccw
  | 22 => .ccw
  | 26 => .ccw
  | 11 => .ccw
  | _ => .invalid

/-- `hall_decoder`, output `same` (41_position_encoder.md R121). -/
def decoderSame (prev cur : HallVector) : Bool := cur == prev

/-- `hall_decoder`, output `is_cw` (R121). -/
def decoderCw (prev cur : HallVector) : Bool :=
  !decoderSame prev cur && classify (transitionCode prev cur) == .cw

/-- `hall_decoder`, output `is_ccw` (R121). -/
def decoderCcw (prev cur : HallVector) : Bool :=
  !decoderSame prev cur && classify (transitionCode prev cur) == .ccw

/-- `hall_decoder`, output `invalid` (R121). -/
def decoderInvalid (prev cur : HallVector) : Bool :=
  !decoderSame prev cur && classify (transitionCode prev cur) == .invalid

/-- `position_accumulator`: plus one for CCW, minus one for CW, modulo 2^64 (R122). -/
def nextPos (pos : Position) : Dir → Position
  | .ccw => pos + 1#64
  | .cw => pos - 1#64

/-- Step 3 of EDGE, the direction: written on a valid code only (R123). -/
def dirAfter (c : StepClass) (dir : Dir) : Dir :=
  match c with
  | .cw => .cw
  | .ccw => .ccw
  | .invalid => dir

/-- Step 3 of EDGE, the error flag: set on an INVALID code, never cleared (R123; 60_exceptions.md R211). -/
def errAfter (c : StepClass) (err : Bool) : Bool :=
  match c with
  | .cw => err
  | .ccw => err
  | .invalid => true

end Sys2Proof.Machine
end

