-- ==== Sys2Proof/Machine/Float.lean ====
section
/-! DEFINITION. IEEE 754 binary32 arithmetic (43_speed_controller.md R174, 30_encoding.md R91) and
`round_i32` (R173). Every finite binary32 value is a whole number of *units* of 2^-149; each operation
computes the exact result as a quotient of naturals in units and narrows it once, at the end. The
result of an invalid operation is the pattern `nan`, a free value its caller supplies (log 8). -/

namespace Sys2Proof.Machine

/-- Bit 31, the sign (R91). -/
def f32Neg (x : Word) : Bool := x.msb

/-- Bits 30:23, the biased exponent (R91). -/
def f32Exp (x : Word) : Nat := x.toNat / 2 ^ 23 % 2 ^ 8

/-- Bits 22:0, the fraction (R91). -/
def f32Frac (x : Word) : Nat := x.toNat % 2 ^ 23

/-- "exponent 255 ... with fraction non-zero a NaN" (R91). -/
def f32IsNaN (x : Word) : Bool := f32Exp x == 255 && f32Frac x != 0

/-- "exponent 255 with fraction 0 is an infinity" (R91). -/
def f32IsInf (x : Word) : Bool := f32Exp x == 255 && f32Frac x == 0

/-- A zero of either sign. -/
def f32IsZero (x : Word) : Bool := f32Exp x == 0 && f32Frac x == 0

/-- Neither an infinity nor a NaN. -/
def f32IsFinite (x : Word) : Bool := f32Exp x != 255

/-- The magnitude of a finite value in units of 2^-149: "exponent 0 is zero or subnormal" (R91). -/
def f32Mag (x : Word) : Nat :=
  if f32Exp x = 0 then f32Frac x else (2 ^ 23 + f32Frac x) * 2 ^ (f32Exp x - 1)

/-- A finite value in units of 2^-149. -/
def f32Units (x : Word) : Int := if f32Neg x then -(f32Mag x : Int) else f32Mag x

/-- The pattern of an infinity's magnitude. -/
def f32InfMag : Nat := 0x7F800000

/-- A pattern from a sign and the pattern of a magnitude. -/
def f32Pack (neg : Bool) (mag : Nat) : Word :=
  BitVec.ofNat 32 (mag + if neg then 2 ^ 31 else 0)

/-- The exponent of the quantum the quotient `num / den` units is rounded to: 24 significant bits are
kept, and never less than one unit (gradual underflow). -/
def f32Quantum (num den : Nat) : Nat := (num / den).log2 + 1 - 24

/-- `num / d` rounded to the nearest natural, ties to even (R174). -/
def roundTiesToEven (num d : Nat) : Nat :=
  let q := num / d
  let r := num % d
  if d < 2 * r ∨ (d = 2 * r ∧ q % 2 = 1) then q + 1 else q

/-- The pattern of the binary32 magnitude nearest to `num / den` units, ties to even; "overflow gives an
infinity" (R174). A significand that rounds up to 2^24 carries into the exponent. -/
def f32RoundMag (num den : Nat) : Nat :=
  let k := f32Quantum num den
  min (k * 2 ^ 23 + roundTiesToEven num (den * 2 ^ k)) f32InfMag

/-- `fadd` (R174). A zero sum of two values that are not both negative is +0.0 (log 10). -/
def f32Add (nan a b : Word) : Word :=
  if f32IsNaN a || f32IsNaN b then nan
  else if f32IsInf a then
    if f32IsInf b && f32Neg a != f32Neg b then nan else a
  else if f32IsInf b then b
  else
    let sum := f32Units a + f32Units b
    if sum = 0 then f32Pack (f32Neg a && f32Neg b) 0
    else f32Pack (decide (sum < 0)) (f32RoundMag sum.natAbs 1)

/-- `fmul` (R174). -/
def f32Mul (nan a b : Word) : Word :=
  let neg := f32Neg a != f32Neg b
  if f32IsNaN a || f32IsNaN b then nan
  else if f32IsInf a || f32IsInf b then
    if f32IsZero a || f32IsZero b then nan else f32Pack neg f32InfMag
  else f32Pack neg (f32RoundMag (f32Mag a * f32Mag b) (2 ^ 149))

/-- `fdiv` (R174). From the standard alone (log 10): an infinity divided by an infinity is invalid, an
infinity divided by a finite value and a finite non-zero value divided by zero are infinities, and a
finite value divided by an infinity is a zero; neither divisor of the spec is zero or infinite. -/
def f32Div (nan a b : Word) : Word :=
  let neg := f32Neg a != f32Neg b
  if f32IsNaN a || f32IsNaN b then nan
  else if f32IsInf a then
    if f32IsInf b then nan else f32Pack neg f32InfMag
  else if f32IsInf b then f32Pack neg 0
  else if f32IsZero b then
    if f32IsZero a then nan else f32Pack neg f32InfMag
  else f32Pack neg (f32RoundMag (f32Mag a * 2 ^ 149) (f32Mag b))

/-- `f32(n)`: an integer to binary32, round to nearest, ties to even (00_scope.md R17). -/
def f32OfInt (n : Int) : Word := f32Pack (decide (n < 0)) (f32RoundMag (n.natAbs * 2 ^ 149) 1)

/-- The domain of `round_i32`: finite `x` with `|x| <= 2147483520` (`0x4EFFFFFF`). The patterns of
magnitudes are in the order of the values (R173). -/
def roundI32Domain (x : Word) : Bool := decide (x.toNat % 2 ^ 31 ≤ 0x4EFFFFFF)

/-- `floor(|x| + 1/2)`, computed exactly (R173). -/
def roundHalfUp (mag : Nat) : Nat := (2 * mag + 2 ^ 149) / 2 ^ 150

/-- `round_i32` (R173): the nearest integer, a tie going away from zero; outside the domain the free
value `any` (log 7). -/
def roundI32 (any x : Word) : Word :=
  if roundI32Domain x then
    let m := BitVec.ofNat 32 (roundHalfUp (f32Mag x))
    if f32Neg x then -m else m
  else any

end Sys2Proof.Machine
end

