-- ==== Sys2Proof/Machine/Ops.lean ====
section
/-! DEFINITION. The shared operations over the state: register updates, the phase-driver port, the
commutation call, the speed command, the acceleration store, the position snapshot, and what a step
does around an operation. There are no exceptions to enter and none to return from
(60_exceptions.md R210, R218, R219). -/

namespace Sys2Proof.Machine

/-! ## Register updates -/

/-- Write the encoder registers. -/
def State.setEnc (s : State) (e : Encoder) : State := { s with enc := e }

/-- Write the motion registers. -/
def State.setMot (s : State) (m : Motion) : State := { s with mot := m }

/-- Write the commutation registers. -/
def State.setCom (s : State) (c : Commutation) : State := { s with com := c }

/-- Write the driver registers. -/
def State.setDrv (s : State) (d : Driver) : State := { s with drv := d }

/-- Write the observer's registers. -/
def State.setObs (s : State) (o : Observer) : State := { s with obs := o }

/-- Use up `n` free values (log 9). -/
def State.draw (s : State) (n : Nat) : State := { s with draws := s.draws + n }

/-- Send driver words to the port, as far as the record of them goes (log 4). -/
def State.emit (s : State) (os : List PortOp) : State := { s with emitted := s.emitted ++ os }

/-- Return a result to the requester (30_encoding.md R81). -/
def State.answer (s : State) (r : Result) : State := { s with result := some r }

/-! ## The phase-driver port -/

/-- `LOCK` (40_phase_driver_port.md R101). -/
def portLock (d : Driver) : Driver := { d with locked := true }

/-- `UNLOCK`: the four copies at one instant (R102). -/
def portUnlock (d : Driver) : Driver :=
  { locked := false, cfgS := d.cfgS, cfgA := d.cfgS, dutyS := d.dutyS, dutyA := d.dutyS }

/-- `CFG mask` (R104). -/
def portCfg (mask : OutputMask) (d : Driver) : Driver :=
  { d with cfgS := mask, cfgA := if d.locked then d.cfgA else mask }

/-- `DUTY ch, value`: "clamped by the driver, not the caller" (R103; 60_exceptions.md R214). -/
def portDuty (pwmMax : Nat) (ch : Channel) (value : Word) (d : Driver) : Driver :=
  let v := clampDuty pwmMax value
  { d with
    dutyS := dutySet d.dutyS ch v
    dutyA := if d.locked then d.dutyA else dutySet d.dutyA ch v }

/-- What a driver word does at the port (R100 to R104). -/
def portApply (pwmMax : Nat) (o : PortOp) (d : Driver) : Driver :=
  match o with
  | .lock => portLock d
  | .unlock => portUnlock d
  | .cfg mask => portCfg mask d
  | .duty ch value => portDuty pwmMax ch value d

/-- What a sequence of driver words does at the port, in list order. -/
def portRun (pwmMax : Nat) (os : List PortOp) (d : Driver) : Driver :=
  os.foldl (fun d o => portApply pwmMax o d) d

/-- The core sends a sequence of driver words to the port (30_encoding.md R85). -/
def send (os : List PortOp) (s : State) : State :=
  (s.setDrv (portRun s.cfg.pwmMax os s.drv)).emit os

/-! ## Commutation -/

/-- The five driver words of `COMMUTATE` with a table entry, in order (42_commutation_engine.md R153). -/
def commutationWords (e : Entry) (mag : BitVec 31) : List PortOp :=
  [.lock, .cfg e.mask, .duty e.hi (mag.setWidth 32), .duty e.lo 0#32, .unlock]

/-- The driver registers after `COMMUTATE` of an invalid vector: eight independent free values in their
ranges, and `drv.locked` is 0 (42_commutation_engine.md R154; log 6). -/
def unspecifiedDriver (pwmMax n : Nat) : Driver where
  locked := false
  cfgS := freeMask n
  cfgA := freeMask (n + 1)
  dutyS := ⟨freeDuty pwmMax (n + 2), freeDuty pwmMax (n + 3), freeDuty pwmMax (n + 4)⟩
  dutyA := ⟨freeDuty pwmMax (n + 5), freeDuty pwmMax (n + 6), freeDuty pwmMax (n + 7)⟩

/-- `COMMUTATE v` for a vector without a table entry (42_commutation_engine.md R154): the driver
registers are unspecified, no other register changes; which words reach the port is not stated, a free
list (log 6). -/
def commutateUnspecified (s : State) : State :=
  ((s.setDrv (unspecifiedDriver s.cfg.pwmMax s.draws)).emit (Config.freePortOps (s.draws + 8))).draw 9

/-- `COMMUTATE v`: the entry keyed by the commanded direction and the vector (42_commutation_engine.md
R150, R153), or no entry for 000 and 111 (R154). -/
def commutate (v : HallVector) (s : State) : State :=
  match tableEntry s.cfg.table s.com.dir v with
  | some e => send (commutationWords e s.com.mag) s
  | none => commutateUnspecified s

/-- `SETSPEED d` for a duty that is not reserved (42_commutation_engine.md R155). -/
def setSpeed (d : Word) (s : State) : State :=
  commutate s.enc.prev (s.setCom { mag := dutyMagnitude d, dir := dutyDirection d })

/-! ## Encoder and motion -/

/-- The encoder registers after a processed edge, steps 2 to 5 of `EDGE` (41_position_encoder.md R123):
the count uses the direction as step 3 leaves it. -/
def encoderAfterEdge (cur : HallVector) (e : Encoder) : Encoder :=
  let c := classify (transitionCode e.prev cur)
  let dir := dirAfter c e.dir
  { prev := cur, pos := nextPos e.pos dir, dir := dir, err := errAfter c e.err }

/-- The store into `mot.accel`, all 32 bits (43_speed_controller.md R171). -/
def storeAccel (a : Word) (s : State) : State := s.setMot { s.mot with accel := a }

/-- The atomic snapshot of `enc.pos` (41_position_encoder.md R124). -/
def snapshotPos (s : State) : Position := s.enc.pos

/-- The outbound frame with the observer's speed (44_environment_agents.md R193). -/
def telemetryFrame (c : Config) (speed : Word) : Frame where
  ident := c.idSpeedTlm
  len := 4
  payload := payloadOf c.wireBigEndian speed

/-! ## Around an operation -/

/-- Serve a request: it leaves the list, and the outputs are those of the operation that now runs
(log 2, log 4). -/
def accept (rest : List Request) (s : State) : State :=
  { s with requests := rest, emitted := [], result := none }

/-- Whether an operation may be issued: before the first RESET only RESET (70_reset_and_hazards.md R241;
93_implementation_defined.md U10; log 11). -/
def mayIssue (i : Instr) (s : State) : Bool := s.started || i == .reset

/-- The refusal of a word the decoder refuses (30_encoding.md R93, R94). -/
def refusalOf : DecodeError → Refusal
  | .reservedWord => .reservedWord
  | .badChannel => .badChannel
  | .badDuty => .badDuty

end Sys2Proof.Machine
end

