-- ==== Sys2Proof/Machine/Agents.lean ====
section
/-! DEFINITION. The environment agents: OBSERVE and RXFRAME (44_environment_agents.md R190 to R195). -/

namespace Sys2Proof.Machine

/-- The measured speed of a tick difference: binary32, left to right (R191). The difference is finite,
so the products are, and the free values are never used (log 8). -/
def measuredSpeed (n : Nat) (delta : Position) : Word :=
  let t1 := f32Mul (freeNaN n) (f32OfInt delta.toInt) twoPi
  let t2 := f32Mul (freeNaN (n + 1)) t1 (f32OfInt obsHz)
  f32Div (freeNaN (n + 2)) t2 (f32OfInt ticksPerRev)

/-- OBSERVE: the snapshot, the wrapping difference, the speed, and the outbound frame (R191, R193). -/
def execObserve (s : State) : Host.Outcome State Fault Refusal :=
  let now := snapshotPos s
  let speed := measuredSpeed s.draws (now - s.obs.prev)
  .next (((s.setObs { prev := now, speed := speed }).draw 3).answer
    (.frame (telemetryFrame s.cfg speed)))

/-- RXFRAME len, p: a frame of four bytes is stored, any other is dropped without a trace (R194, R195). -/
def execRxframe (len : BitVec 4) (p : Payload) (s : State) : Host.Outcome State Fault Refusal :=
  .next (if len = 4#4 then storeAccel (wordOfPayload s.cfg.wireBigEndian p) s else s)

end Sys2Proof.Machine
end

