-- ==== Sys2Proof/Machine/CommutationEngine.lean ====
section
/-! DEFINITION. The commutation engine: COMMUTATE and SETSPEED (42_commutation_engine.md R150 to R155). -/

namespace Sys2Proof.Machine

/-- COMMUTATE v (R153, R154). -/
def execCommutate (v : HallVector) (s : State) : Host.Outcome State Fault Refusal :=
  .next (commutate v s)

/-- SETSPEED d (R155); -2^31 is reserved, `refuse(bad_duty)` (30_encoding.md R94 (e)). -/
def execSetspeed (d : Word) (s : State) : Host.Outcome State Fault Refusal :=
  if signedDutyOk d then .next (setSpeed d s) else .refused .badDuty

end Sys2Proof.Machine
end

