-- ==== Sys2Proof/Machine/Port.lean ====
section
/-! DEFINITION. The phase-driver port, driven directly by the test bench: LOCK, UNLOCK, CFG, DUTY
(40_phase_driver_port.md R100 to R104). A word the test bench sends is not one the core emits (log 5). -/

namespace Sys2Proof.Machine

/-- LOCK (R101). -/
def execLock (s : State) : Host.Outcome State Fault Refusal := .next (s.setDrv (portLock s.drv))

/-- UNLOCK (R102). -/
def execUnlock (s : State) : Host.Outcome State Fault Refusal := .next (s.setDrv (portUnlock s.drv))

/-- CFG mask (R104). -/
def execCfg (mask : OutputMask) (s : State) : Host.Outcome State Fault Refusal :=
  .next (s.setDrv (portCfg mask s.drv))

/-- DUTY ch, value (R103). -/
def execDuty (ch : Channel) (value : Word) (s : State) : Host.Outcome State Fault Refusal :=
  .next (s.setDrv (portDuty s.cfg.pwmMax ch value s.drv))

end Sys2Proof.Machine
end

