-- ==== Sys2Proof/Machine/PositionEncoder.lean ====
section
/-! DEFINITION. The position encoder: SAMPLE, EDGE, GETPOS, GETDIR, GETERR, RESETERR
(41_position_encoder.md R120 to R127). -/

namespace Sys2Proof.Machine

/-- SAMPLE: returns `H3 ++ H2 ++ H1`; no state changes (R120). -/
def execSample (h1 h2 h3 : Bool) (s : State) : Host.Outcome State Fault Refusal :=
  .next (s.answer (.vector (hallVector h1 h2 h3)))

/-- EDGE cur: returns at once when the vector has not changed (step 1), else counts and commutates
(steps 2 to 6) (R123). -/
def execEdge (cur : HallVector) (s : State) : Host.Outcome State Fault Refusal :=
  .next (if cur = s.enc.prev then s else commutate cur (s.setEnc (encoderAfterEdge cur s.enc)))

/-- GETPOS: all 64 bits as of one instant (R124). -/
def execGetpos (s : State) : Host.Outcome State Fault Refusal :=
  .next (s.answer (.position (snapshotPos s)))

/-- GETDIR: the measured direction (R125). -/
def execGetdir (s : State) : Host.Outcome State Fault Refusal :=
  .next (s.answer (.direction (dirBit s.enc.dir)))

/-- GETERR: the read does not clear the flag (R126). -/
def execGeterr (s : State) : Host.Outcome State Fault Refusal :=
  .next (s.answer (.error (BitVec.ofBool s.enc.err)))

/-- RESETERR: clears `enc.err` and nothing else (R127). -/
def execReseterr (s : State) : Host.Outcome State Fault Refusal :=
  .next (s.setEnc { s.enc with err := false })

end Sys2Proof.Machine
end

