-- ==== Sys2Proof/Machine/SpeedController.lean ====
section
/-! DEFINITION. The speed controller: TICK and SETACCEL (43_speed_controller.md R171 to R174). -/

namespace Sys2Proof.Machine

/-- The new speed setpoint: one forward-Euler step, a division by 100.0 and an addition (R172). -/
def integrate (nan1 nan2 accel speed : Word) : Word :=
  f32Add nan2 speed (f32Div nan1 accel (f32OfInt ctrlHz))

/-- The voltage command before rounding: the product from left to right (R172). -/
def voltage (nan1 nan2 : Word) (c : Config) (speed : Word) : Word :=
  f32Mul nan2 (f32Mul nan1 c.pwmVoltsRatio c.motorSpeedConstant) speed

/-- The motion registers after a tick; the free values are numbered from `n` (R172; log 7, log 8). -/
def motionAfterTick (c : Config) (n : Nat) (m : Motion) : Motion :=
  let speed := integrate (freeNaN n) (freeNaN (n + 1)) m.accel m.speed
  let x := voltage (freeNaN (n + 2)) (freeNaN (n + 3)) c speed
  { accel := m.accel, speed := speed, vcmd := roundI32 (freeVcmd (n + 4)) x }

/-- TICK: integrate, convert, and pass the voltage command to SETSPEED (R172). -/
def execTick (s : State) : Host.Outcome State Fault Refusal :=
  let m := motionAfterTick s.cfg s.draws s.mot
  .next (setSpeed m.vcmd ((s.setMot m).draw 5))

/-- SETACCEL a (R171). -/
def execSetaccel (a : Word) (s : State) : Host.Outcome State Fault Refusal := .next (storeAccel a s)

end Sys2Proof.Machine
end

