-- ==== Sys2Proof/Machine/Startup.lean ====
section
/-! DEFINITION. Start-up: RESET (70_reset_and_hazards.md R240, R241). -/

namespace Sys2Proof.Machine

/-- RESET: every register to its reset value in one step, no driver word (R241). -/
def execReset (s : State) : Host.Outcome State Fault Refusal :=
  .next
    { s with
      enc := { prev := s.cfg.hallReset, pos := 0#64, dir := .cw, err := false }
      mot := { accel := 0#32, speed := 0#32, vcmd := 0#32 }
      com := { mag := 0#31, dir := .ccw }
      drv :=
        { locked := false, cfgS := 0#3, cfgA := 0#3, dutyS := ⟨0#32, 0#32, 0#32⟩
          dutyA := ⟨0#32, 0#32, 0#32⟩ }
      obs := { prev := 0#64, speed := 0#32 }
      started := true }

end Sys2Proof.Machine
end

