-- ==== Sys2Proof/Machine/Dispatch.lean ====
section
/-! DEFINITION. Dispatch: one arm per operation, each a call of its own meaning. -/

namespace Sys2Proof.Machine

def exec (i : Instr) (s : State) : Host.Outcome State Fault Refusal :=
  match i with
  | .reset => Sys2Proof.Machine.execReset s
  | .sample h1 h2 h3 => Sys2Proof.Machine.execSample h1 h2 h3 s
  | .edge cur => Sys2Proof.Machine.execEdge cur s
  | .commutate v => Sys2Proof.Machine.execCommutate v s
  | .setspeed d => Sys2Proof.Machine.execSetspeed d s
  | .tick => Sys2Proof.Machine.execTick s
  | .setaccel a => Sys2Proof.Machine.execSetaccel a s
  | .getpos => Sys2Proof.Machine.execGetpos s
  | .getdir => Sys2Proof.Machine.execGetdir s
  | .geterr => Sys2Proof.Machine.execGeterr s
  | .reseterr => Sys2Proof.Machine.execReseterr s
  | .observe => Sys2Proof.Machine.execObserve s
  | .rxframe len p => Sys2Proof.Machine.execRxframe len p s
  | .lock => Sys2Proof.Machine.execLock s
  | .unlock => Sys2Proof.Machine.execUnlock s
  | .cfg mask => Sys2Proof.Machine.execCfg mask s
  | .duty ch value => Sys2Proof.Machine.execDuty ch value s

end Sys2Proof.Machine
end

