-- ==== Sys2Proof/Machine/Step.lean ====
section
/-! DEFINITION. One step: serve the first request presented, or stay idle when there is none. -/

namespace Sys2Proof.Machine

/-- One atomic operation (20_memory.md R56, R57). With nothing presented the block is idle: "it changes
no register until the next request" (70_reset_and_hazards.md R244; log 3). -/
def step (s : State) : Host.Outcome State Fault Refusal :=
  match s.requests with
  | [] => .next s
  | w :: rest =>
    match decode w with
    | .refuse e => .refused (refusalOf e)
    | .instr i => if mayIssue i s then exec i (accept rest s) else .fault .unwrittenRegister

/-- The state with a word of the opcode table presented first, so that the next step serves it (log 2). -/
def State.withFetchWord (s : State) (nbits w : Nat) : State :=
  { s with requests := tableRequest nbits w :: s.requests }

end Sys2Proof.Machine
end

