-- ==== Sys2Proof/Laws/State.lean ====
section
/-! SUPPORT. One lemma per field per register update of Machine/Ops.lean, true by rfl. -/

namespace Sys2Proof.Machine

variable (s : State)

/-! ### `State.setEnc` -/

@[simp] theorem State.setEnc_cfg (e : Encoder) : (s.setEnc e).cfg = s.cfg := rfl
@[simp] theorem State.setEnc_enc (e : Encoder) : (s.setEnc e).enc = e := rfl
@[simp] theorem State.setEnc_mot (e : Encoder) : (s.setEnc e).mot = s.mot := rfl
@[simp] theorem State.setEnc_com (e : Encoder) : (s.setEnc e).com = s.com := rfl
@[simp] theorem State.setEnc_drv (e : Encoder) : (s.setEnc e).drv = s.drv := rfl
@[simp] theorem State.setEnc_obs (e : Encoder) : (s.setEnc e).obs = s.obs := rfl
@[simp] theorem State.setEnc_started (e : Encoder) : (s.setEnc e).started = s.started := rfl
@[simp] theorem State.setEnc_draws (e : Encoder) : (s.setEnc e).draws = s.draws := rfl
@[simp] theorem State.setEnc_requests (e : Encoder) : (s.setEnc e).requests = s.requests := rfl
@[simp] theorem State.setEnc_emitted (e : Encoder) : (s.setEnc e).emitted = s.emitted := rfl
@[simp] theorem State.setEnc_result (e : Encoder) : (s.setEnc e).result = s.result := rfl

/-! ### `State.setMot` -/

@[simp] theorem State.setMot_cfg (m : Motion) : (s.setMot m).cfg = s.cfg := rfl
@[simp] theorem State.setMot_enc (m : Motion) : (s.setMot m).enc = s.enc := rfl
@[simp] theorem State.setMot_mot (m : Motion) : (s.setMot m).mot = m := rfl
@[simp] theorem State.setMot_com (m : Motion) : (s.setMot m).com = s.com := rfl
@[simp] theorem State.setMot_drv (m : Motion) : (s.setMot m).drv = s.drv := rfl
@[simp] theorem State.setMot_obs (m : Motion) : (s.setMot m).obs = s.obs := rfl
@[simp] theorem State.setMot_started (m : Motion) : (s.setMot m).started = s.started := rfl
@[simp] theorem State.setMot_draws (m : Motion) : (s.setMot m).draws = s.draws := rfl
@[simp] theorem State.setMot_requests (m : Motion) : (s.setMot m).requests = s.requests := rfl
@[simp] theorem State.setMot_emitted (m : Motion) : (s.setMot m).emitted = s.emitted := rfl
@[simp] theorem State.setMot_result (m : Motion) : (s.setMot m).result = s.result := rfl

/-! ### `State.setCom` -/

@[simp] theorem State.setCom_cfg (c : Commutation) : (s.setCom c).cfg = s.cfg := rfl
@[simp] theorem State.setCom_enc (c : Commutation) : (s.setCom c).enc = s.enc := rfl
@[simp] theorem State.setCom_mot (c : Commutation) : (s.setCom c).mot = s.mot := rfl
@[simp] theorem State.setCom_com (c : Commutation) : (s.setCom c).com = c := rfl
@[simp] theorem State.setCom_drv (c : Commutation) : (s.setCom c).drv = s.drv := rfl
@[simp] theorem State.setCom_obs (c : Commutation) : (s.setCom c).obs = s.obs := rfl
@[simp] theorem State.setCom_started (c : Commutation) : (s.setCom c).started = s.started := rfl
@[simp] theorem State.setCom_draws (c : Commutation) : (s.setCom c).draws = s.draws := rfl
@[simp] theorem State.setCom_requests (c : Commutation) : (s.setCom c).requests = s.requests := rfl
@[simp] theorem State.setCom_emitted (c : Commutation) : (s.setCom c).emitted = s.emitted := rfl
@[simp] theorem State.setCom_result (c : Commutation) : (s.setCom c).result = s.result := rfl

/-! ### `State.setDrv` -/

@[simp] theorem State.setDrv_cfg (d : Driver) : (s.setDrv d).cfg = s.cfg := rfl
@[simp] theorem State.setDrv_enc (d : Driver) : (s.setDrv d).enc = s.enc := rfl
@[simp] theorem State.setDrv_mot (d : Driver) : (s.setDrv d).mot = s.mot := rfl
@[simp] theorem State.setDrv_com (d : Driver) : (s.setDrv d).com = s.com := rfl
@[simp] theorem State.setDrv_drv (d : Driver) : (s.setDrv d).drv = d := rfl
@[simp] theorem State.setDrv_obs (d : Driver) : (s.setDrv d).obs = s.obs := rfl
@[simp] theorem State.setDrv_started (d : Driver) : (s.setDrv d).started = s.started := rfl
@[simp] theorem State.setDrv_draws (d : Driver) : (s.setDrv d).draws = s.draws := rfl
@[simp] theorem State.setDrv_requests (d : Driver) : (s.setDrv d).requests = s.requests := rfl
@[simp] theorem State.setDrv_emitted (d : Driver) : (s.setDrv d).emitted = s.emitted := rfl
@[simp] theorem State.setDrv_result (d : Driver) : (s.setDrv d).result = s.result := rfl

/-! ### `State.setObs` -/

@[simp] theorem State.setObs_cfg (o : Observer) : (s.setObs o).cfg = s.cfg := rfl
@[simp] theorem State.setObs_enc (o : Observer) : (s.setObs o).enc = s.enc := rfl
@[simp] theorem State.setObs_mot (o : Observer) : (s.setObs o).mot = s.mot := rfl
@[simp] theorem State.setObs_com (o : Observer) : (s.setObs o).com = s.com := rfl
@[simp] theorem State.setObs_drv (o : Observer) : (s.setObs o).drv = s.drv := rfl
@[simp] theorem State.setObs_obs (o : Observer) : (s.setObs o).obs = o := rfl
@[simp] theorem State.setObs_started (o : Observer) : (s.setObs o).started = s.started := rfl
@[simp] theorem State.setObs_draws (o : Observer) : (s.setObs o).draws = s.draws := rfl
@[simp] theorem State.setObs_requests (o : Observer) : (s.setObs o).requests = s.requests := rfl
@[simp] theorem State.setObs_emitted (o : Observer) : (s.setObs o).emitted = s.emitted := rfl
@[simp] theorem State.setObs_result (o : Observer) : (s.setObs o).result = s.result := rfl

/-! ### `State.draw` -/

@[simp] theorem State.draw_cfg (n : Nat) : (s.draw n).cfg = s.cfg := rfl
@[simp] theorem State.draw_enc (n : Nat) : (s.draw n).enc = s.enc := rfl
@[simp] theorem State.draw_mot (n : Nat) : (s.draw n).mot = s.mot := rfl
@[simp] theorem State.draw_com (n : Nat) : (s.draw n).com = s.com := rfl
@[simp] theorem State.draw_drv (n : Nat) : (s.draw n).drv = s.drv := rfl
@[simp] theorem State.draw_obs (n : Nat) : (s.draw n).obs = s.obs := rfl
@[simp] theorem State.draw_started (n : Nat) : (s.draw n).started = s.started := rfl
@[simp] theorem State.draw_draws (n : Nat) : (s.draw n).draws = s.draws + n := rfl
@[simp] theorem State.draw_requests (n : Nat) : (s.draw n).requests = s.requests := rfl
@[simp] theorem State.draw_emitted (n : Nat) : (s.draw n).emitted = s.emitted := rfl
@[simp] theorem State.draw_result (n : Nat) : (s.draw n).result = s.result := rfl

/-! ### `State.emit` -/

@[simp] theorem State.emit_cfg (os : List PortOp) : (s.emit os).cfg = s.cfg := rfl
@[simp] theorem State.emit_enc (os : List PortOp) : (s.emit os).enc = s.enc := rfl
@[simp] theorem State.emit_mot (os : List PortOp) : (s.emit os).mot = s.mot := rfl
@[simp] theorem State.emit_com (os : List PortOp) : (s.emit os).com = s.com := rfl
@[simp] theorem State.emit_drv (os : List PortOp) : (s.emit os).drv = s.drv := rfl
@[simp] theorem State.emit_obs (os : List PortOp) : (s.emit os).obs = s.obs := rfl
@[simp] theorem State.emit_started (os : List PortOp) : (s.emit os).started = s.started := rfl
@[simp] theorem State.emit_draws (os : List PortOp) : (s.emit os).draws = s.draws := rfl
@[simp] theorem State.emit_requests (os : List PortOp) : (s.emit os).requests = s.requests := rfl
@[simp] theorem State.emit_emitted (os : List PortOp) : (s.emit os).emitted = s.emitted ++ os := rfl
@[simp] theorem State.emit_result (os : List PortOp) : (s.emit os).result = s.result := rfl

/-! ### `State.answer` -/

@[simp] theorem State.answer_cfg (r : Result) : (s.answer r).cfg = s.cfg := rfl
@[simp] theorem State.answer_enc (r : Result) : (s.answer r).enc = s.enc := rfl
@[simp] theorem State.answer_mot (r : Result) : (s.answer r).mot = s.mot := rfl
@[simp] theorem State.answer_com (r : Result) : (s.answer r).com = s.com := rfl
@[simp] theorem State.answer_drv (r : Result) : (s.answer r).drv = s.drv := rfl
@[simp] theorem State.answer_obs (r : Result) : (s.answer r).obs = s.obs := rfl
@[simp] theorem State.answer_started (r : Result) : (s.answer r).started = s.started := rfl
@[simp] theorem State.answer_draws (r : Result) : (s.answer r).draws = s.draws := rfl
@[simp] theorem State.answer_requests (r : Result) : (s.answer r).requests = s.requests := rfl
@[simp] theorem State.answer_emitted (r : Result) : (s.answer r).emitted = s.emitted := rfl
@[simp] theorem State.answer_result (r : Result) : (s.answer r).result = some r := rfl

/-! ### `accept` -/

@[simp] theorem accept_cfg (rest : List Request) : (accept rest s).cfg = s.cfg := rfl
@[simp] theorem accept_enc (rest : List Request) : (accept rest s).enc = s.enc := rfl
@[simp] theorem accept_mot (rest : List Request) : (accept rest s).mot = s.mot := rfl
@[simp] theorem accept_com (rest : List Request) : (accept rest s).com = s.com := rfl
@[simp] theorem accept_drv (rest : List Request) : (accept rest s).drv = s.drv := rfl
@[simp] theorem accept_obs (rest : List Request) : (accept rest s).obs = s.obs := rfl
@[simp] theorem accept_started (rest : List Request) : (accept rest s).started = s.started := rfl
@[simp] theorem accept_draws (rest : List Request) : (accept rest s).draws = s.draws := rfl
@[simp] theorem accept_requests (rest : List Request) : (accept rest s).requests = rest := rfl
@[simp] theorem accept_emitted (rest : List Request) : (accept rest s).emitted = [] := rfl
@[simp] theorem accept_result (rest : List Request) : (accept rest s).result = none := rfl

end Sys2Proof.Machine
end

