-- ==== Sys2Proof/Laws/Operands.lean ====
section
/-! SUPPORT. What the operand forms and the port's single operations can do, said once. -/

namespace Sys2Proof.Machine

/-! ### Duty register files -/

@[simp] theorem dutyGet_dutySet (d : Duties) (c e : Channel) (v : Word) :
    dutyGet (dutySet d c v) e = if e = c then v else dutyGet d e := by
  cases c <;> cases e <;> rfl

theorem duties_ext {d e : Duties} (h : ∀ c, dutyGet d c = dutyGet e c) : d = e := by
  have h0 := h .ch0
  have h1 := h .ch1
  have h2 := h .ch2
  cases d
  cases e
  simp_all [dutyGet]

/-- The clamp of R103 as a minimum. -/
theorem clampDuty_toNat (pwmMax : Nat) (v : Word) :
    (clampDuty pwmMax v).toNat = min v.toNat pwmMax := by
  have := v.isLt
  unfold clampDuty
  split <;> simp <;> omega

@[simp] theorem clampDuty_zero (pwmMax : Nat) : clampDuty pwmMax 0#32 = 0#32 := by
  simp [clampDuty]

theorem freeDuty_le (pwmMax n : Nat) : (freeDuty pwmMax n).toNat ≤ pwmMax := by
  have h := Nat.mod_lt (Config.freeValue n).toNat (Nat.zero_lt_succ pwmMax)
  rw [Nat.succ_eq_add_one] at h
  have h' := (Config.freeValue n).isLt
  have hm := Nat.mod_le (Config.freeValue n).toNat (pwmMax + 1)
  simp only [freeDuty, BitVec.toNat_ofNat]
  rw [Nat.mod_eq_of_lt (by omega)]
  omega

/-! ### Signed duty -/

theorem signedDutyOk_iff (d : Word) : signedDutyOk d = true ↔ d ≠ 0x80000000#32 := by
  simp [signedDutyOk]

/-- The direction of R76 by the sign of the duty. -/
theorem dutyDirection_cw_iff (d : Word) : dutyDirection d = .cw ↔ d.toInt < 0 := by
  have h := BitVec.msb_eq_toInt (x := d)
  cases hm : d.msb <;> simp_all [dutyDirection]

theorem dutyDirection_eq (d : Word) : dutyDirection d = if d.toInt < 0 then .cw else .ccw := by
  split
  · exact (dutyDirection_cw_iff d).mpr ‹_›
  · cases h : dutyDirection d
    · exact absurd ((dutyDirection_cw_iff d).mp h) ‹_›
    · rfl

/-- `mag = abs(d)` (R76), for a duty that is not reserved. -/
theorem dutyMagnitude_toNat (d : Word) (h : d ≠ 0x80000000#32) :
    (dutyMagnitude d).toNat = d.toInt.natAbs := by
  have hlt := d.isLt
  have hne : d.toNat ≠ 2147483648 := fun e => h (BitVec.eq_of_toNat_eq (by simpa using e))
  unfold dutyMagnitude
  rw [BitVec.toInt_eq_msb_cond]
  cases hm : d.msb
  · have : d.toNat < 2 ^ 31 := by
      have := BitVec.msb_eq_false_iff_two_mul_lt.mp hm
      omega
    simp
    omega
  · have : 2 ^ 31 ≤ d.toNat := by
      have := BitVec.msb_eq_true_iff_two_mul_ge.mp hm
      omega
    simp
    omega

theorem freeVcmd_ok (n : Nat) : freeVcmd n ≠ 0x80000000#32 := by
  rw [← signedDutyOk_iff]
  unfold freeVcmd
  dsimp only
  split
  · assumption
  · decide

/-! ### The commutation key -/

/-- There is an entry exactly for the valid vectors (R151: no entry for 000 or 111). -/
theorem tableEntry_isSome_iff (t : CommTable) (dir : Dir) (v : HallVector) :
    (tableEntry t dir v).isSome = true ↔ v ≠ 0#3 ∧ v ≠ 7#3 := by
  rcases v with ⟨⟨n, hn⟩⟩
  interval_cases n <;> simp [tableEntry, ← BitVec.toNat_inj]

theorem tableEntry_none_iff (t : CommTable) (dir : Dir) (v : HallVector) :
    tableEntry t dir v = none ↔ v = 0#3 ∨ v = 7#3 := by
  have h := tableEntry_isSome_iff t dir v
  cases e : tableEntry t dir v <;> simp [e] at h ⊢ <;> tauto

/-- Every entry of a well-formed table is well formed (R151 (a), (b)). -/
theorem tableEntry_wf {t : CommTable} {dir : Dir} {v : HallVector} {e : Entry}
    (ht : t.wf = true) (he : tableEntry t dir v = some e) : e.wf = true := by
  simp only [CommTable.wf, Bool.and_eq_true] at ht
  unfold tableEntry at he
  cases dir <;> split at he <;> simp only [sectors, Option.some.injEq, reduceCtorEq] at he <;>
    subst he <;> tauto

theorem entry_wf_iff (e : Entry) :
    e.wf = true ↔ e.hi ≠ e.lo ∧ e.mask = (e.hi.bit ||| e.lo.bit) := by
  simp [Entry.wf]

/-- The two bits of a well-formed mask, channel by channel (R151 (b)). -/
theorem mask_bit_iff {e : Entry} (h : e.wf = true) (c : Channel) :
    e.mask &&& c.bit = 0#3 ↔ c ≠ e.hi ∧ c ≠ e.lo := by
  obtain ⟨hne, hm⟩ := (entry_wf_iff e).mp h
  rw [hm]
  rcases e with ⟨m, hi, lo⟩
  cases hi <;> cases lo <;> cases c <;> simp_all <;> decide

theorem config_table_wf {c : Config} (h : c.wf = true) : c.table.wf = true := by
  simp only [Config.wf, Bool.and_eq_true] at h
  exact h.2

/-! ### The wire payload -/

/-- Decoding the payload of a pattern with the same byte order returns it (30_encoding.md R90). -/
theorem payloadOf_bytes (b : Word) (be : Bool) :
    (payloadOf be b).p0 = (if be then b.extractLsb' 24 8 else b.extractLsb' 0 8) ∧
    (payloadOf be b).p1 = (if be then b.extractLsb' 16 8 else b.extractLsb' 8 8) ∧
    (payloadOf be b).p2 = (if be then b.extractLsb' 8 8 else b.extractLsb' 16 8) ∧
    (payloadOf be b).p3 = (if be then b.extractLsb' 0 8 else b.extractLsb' 24 8) := by
  cases be <;> exact ⟨rfl, rfl, rfl, rfl⟩

/-! ### Free NaNs -/

/-- A pattern with exponent 255 and a fraction that is not zero is a NaN (30_encoding.md R91). -/
theorem f32IsNaN_of_toNat {x : Word} {a g : Nat} (h : x.toNat = a * 2 ^ 31 + 255 * 2 ^ 23 + g)
    (hg : 0 < g) (hl : g < 2 ^ 23) : f32IsNaN x = true := by
  have he : f32Exp x = 255 := by
    unfold f32Exp
    omega
  have hf : f32Frac x ≠ 0 := by
    unfold f32Frac
    omega
  simp [f32IsNaN, he, hf]

theorem toNat_nan_fields (sg : BitVec 1) (g : BitVec 23) :
    (sg ++ 0xFF#8 ++ g).toNat = sg.toNat * 2 ^ 31 + 255 * 2 ^ 23 + g.toNat := by
  have h1 := g.isLt
  rw [BitVec.toNat_append, BitVec.toNat_append, ← Nat.shiftLeft_add_eq_or_of_lt h1,
    ← Nat.shiftLeft_add_eq_or_of_lt (by decide : (0xFF#8).toNat < 2 ^ 8), Nat.shiftLeft_eq,
    Nat.shiftLeft_eq]
  have : (0xFF#8).toNat = 255 := rfl
  omega

/-- A free NaN is a NaN. -/
theorem freeNaN_isNaN (n : Nat) : f32IsNaN (freeNaN n) = true := by
  unfold freeNaN
  dsimp only
  have pos : ∀ g : BitVec 23, g ≠ 0#23 → 0 < g.toNat := fun g hg =>
    Nat.pos_of_ne_zero fun e => hg (BitVec.eq_of_toNat_eq (by simpa using e))
  split
  · exact f32IsNaN_of_toNat (toNat_nan_fields _ _) (pos _ (by decide)) (BitVec.isLt _)
  · exact f32IsNaN_of_toNat (toNat_nan_fields _ _) (pos _ ‹_›) (BitVec.isLt _)

end Sys2Proof.Machine
end

