-- ==== Sys2Proof/Laws/Ops.lean ====
section
/-! SUPPORT. What each shared operation of Machine/Ops.lean can do, said once. -/

namespace Sys2Proof.Machine

/-! ### The port -/

theorem portRun_nil (p : Nat) (d : Driver) : portRun p [] d = d := rfl

theorem portRun_cons (p : Nat) (o : PortOp) (os : List PortOp) (d : Driver) :
    portRun p (o :: os) d = portRun p os (portApply p o d) := rfl

theorem portRun_append (p : Nat) (os ps : List PortOp) (d : Driver) :
    portRun p (os ++ ps) d = portRun p ps (portRun p os d) := by
  simp [portRun, List.foldl_append]

/-- The five words of a commutation, from any driver state: the mask and the two duties are written, and
at `UNLOCK` the applied copies become the shadow copies (42_commutation_engine.md R153). -/
theorem portRun_commutationWords (p : Nat) (e : Entry) (mag : BitVec 31) (d : Driver) :
    portRun p (commutationWords e mag) d =
      let duties := dutySet (dutySet d.dutyS e.hi (clampDuty p (mag.setWidth 32))) e.lo 0#32
      { locked := false, cfgS := e.mask, cfgA := e.mask, dutyS := duties, dutyA := duties } := by
  simp [commutationWords, portRun, portApply, portLock, portCfg, portDuty, portUnlock]

/-! ### `send` -/

@[simp] theorem send_drv (os : List PortOp) (s : State) :
    (send os s).drv = portRun s.cfg.pwmMax os s.drv := rfl

@[simp] theorem send_emitted (os : List PortOp) (s : State) :
    (send os s).emitted = s.emitted ++ os := rfl

/-- `send` writes the driver registers and the record of the words, and nothing else. -/
theorem send_frame (os : List PortOp) (s : State) :
    send os s = { s with drv := portRun s.cfg.pwmMax os s.drv, emitted := s.emitted ++ os } := rfl

/-! ### `commutate` -/

/-- What `COMMUTATE` does with a table entry (R153). -/
theorem commutate_of_entry {v : HallVector} {s : State} {e : Entry}
    (h : tableEntry s.cfg.table s.com.dir v = some e) :
    commutate v s = send (commutationWords e s.com.mag) s := by
  simp [commutate, h]

/-- What `COMMUTATE` does without a table entry (R154). -/
theorem commutate_of_none {v : HallVector} {s : State}
    (h : tableEntry s.cfg.table s.com.dir v = none) : commutate v s = commutateUnspecified s := by
  simp [commutate, h]

/-- A valid vector has a table entry (R151), so `COMMUTATE` sends its five words and uses no free value. -/
theorem commutate_of_valid {v : HallVector} (s : State) (h0 : v ≠ 0#3) (h7 : v ≠ 7#3) :
    ∃ e, tableEntry s.cfg.table s.com.dir v = some e ∧
      commutate v s = send (commutationWords e s.com.mag) s := by
  obtain ⟨e, he⟩ := Option.isSome_iff_exists.mp
    ((tableEntry_isSome_iff s.cfg.table s.com.dir v).mpr ⟨h0, h7⟩)
  exact ⟨e, he, commutate_of_entry he⟩

/-- `COMMUTATE` reads and writes no register but those of the driver; it may use free values. -/
theorem commutate_frame (v : HallVector) (s : State) :
    commutate v s =
      { s with
        drv := (commutate v s).drv
        emitted := (commutate v s).emitted
        draws := (commutate v s).draws } := by
  unfold commutate
  split <;> rfl

@[simp] theorem commutate_cfg (v : HallVector) (s : State) : (commutate v s).cfg = s.cfg := by
  rw [commutate_frame]

@[simp] theorem commutate_enc (v : HallVector) (s : State) : (commutate v s).enc = s.enc := by
  rw [commutate_frame]

@[simp] theorem commutate_mot (v : HallVector) (s : State) : (commutate v s).mot = s.mot := by
  rw [commutate_frame]

@[simp] theorem commutate_com (v : HallVector) (s : State) : (commutate v s).com = s.com := by
  rw [commutate_frame]

@[simp] theorem commutate_obs (v : HallVector) (s : State) : (commutate v s).obs = s.obs := by
  rw [commutate_frame]

@[simp] theorem commutate_started (v : HallVector) (s : State) :
    (commutate v s).started = s.started := by
  rw [commutate_frame]

@[simp] theorem commutate_requests (v : HallVector) (s : State) :
    (commutate v s).requests = s.requests := by
  rw [commutate_frame]

@[simp] theorem commutate_result (v : HallVector) (s : State) :
    (commutate v s).result = s.result := by
  rw [commutate_frame]

/-- `COMMUTATE` leaves the driver unlocked, with or without an entry (R153, R154). -/
@[simp] theorem commutate_locked (v : HallVector) (s : State) :
    (commutate v s).drv.locked = false := by
  unfold commutate
  split
  · simp [portRun_commutationWords]
  · rfl

theorem clampDuty_le (p : Nat) (v : Word) : (clampDuty p v).toNat ≤ p := by
  rw [clampDuty_toNat]
  omega

/-- `COMMUTATE` keeps the duties within `PWM_MAX` (10_state.md R41 (d)). -/
theorem commutate_duties {v : HallVector} {s : State}
    (h : ∀ c, (dutyGet s.drv.dutyS c).toNat ≤ s.cfg.pwmMax) (c : Channel) :
    (dutyGet (commutate v s).drv.dutyS c).toNat ≤ s.cfg.pwmMax ∧
    (dutyGet (commutate v s).drv.dutyA c).toNat ≤ s.cfg.pwmMax := by
  unfold commutate
  split
  · rw [send_drv, portRun_commutationWords]
    simp only [dutyGet_dutySet]
    have := h c
    constructor <;> split <;> try split
    all_goals first | exact clampDuty_le _ _ | simp | assumption
  · constructor <;> cases c <;> exact freeDuty_le _ _

/-! ### `setSpeed` -/

/-- `SETSPEED` writes the commutation registers and calls `COMMUTATE` with `enc.prev` (R155). -/
theorem setSpeed_eq (d : Word) (s : State) :
    setSpeed d s =
      commutate s.enc.prev { s with com := { mag := dutyMagnitude d, dir := dutyDirection d } } := rfl

/-- `SETSPEED` writes the commutation registers and those of the driver; it may use free values. -/
theorem setSpeed_frame (d : Word) (s : State) :
    setSpeed d s =
      { s with
        com := { mag := dutyMagnitude d, dir := dutyDirection d }
        drv := (setSpeed d s).drv
        emitted := (setSpeed d s).emitted
        draws := (setSpeed d s).draws } := by
  rw [setSpeed_eq]
  exact commutate_frame _ _

@[simp] theorem setSpeed_com (d : Word) (s : State) :
    (setSpeed d s).com = { mag := dutyMagnitude d, dir := dutyDirection d } := by
  simp [setSpeed]

@[simp] theorem setSpeed_cfg (d : Word) (s : State) : (setSpeed d s).cfg = s.cfg := by
  simp [setSpeed]

@[simp] theorem setSpeed_enc (d : Word) (s : State) : (setSpeed d s).enc = s.enc := by
  simp [setSpeed]

@[simp] theorem setSpeed_mot (d : Word) (s : State) : (setSpeed d s).mot = s.mot := by
  simp [setSpeed]

@[simp] theorem setSpeed_obs (d : Word) (s : State) : (setSpeed d s).obs = s.obs := by
  simp [setSpeed]

@[simp] theorem setSpeed_started (d : Word) (s : State) : (setSpeed d s).started = s.started := by
  simp [setSpeed]

@[simp] theorem setSpeed_requests (d : Word) (s : State) :
    (setSpeed d s).requests = s.requests := by
  simp [setSpeed]

@[simp] theorem setSpeed_result (d : Word) (s : State) : (setSpeed d s).result = s.result := by
  simp [setSpeed]

@[simp] theorem setSpeed_locked (d : Word) (s : State) : (setSpeed d s).drv.locked = false := by
  simp [setSpeed]

/-- With a valid vector stored `SETSPEED` sends five words and uses no free value. -/
theorem setSpeed_of_valid (d : Word) (s : State) (h0 : s.enc.prev ≠ 0#3) (h7 : s.enc.prev ≠ 7#3) :
    ∃ e, tableEntry s.cfg.table (dutyDirection d) s.enc.prev = some e ∧
      setSpeed d s = send (commutationWords e (dutyMagnitude d))
        (s.setCom { mag := dutyMagnitude d, dir := dutyDirection d }) :=
  commutate_of_valid (s.setCom { mag := dutyMagnitude d, dir := dutyDirection d }) h0 h7

/-- `SETSPEED` keeps the duties within `PWM_MAX`. -/
theorem setSpeed_duties {d : Word} {s : State}
    (h : ∀ c, (dutyGet s.drv.dutyS c).toNat ≤ s.cfg.pwmMax) (c : Channel) :
    (dutyGet (setSpeed d s).drv.dutyS c).toNat ≤ s.cfg.pwmMax ∧
    (dutyGet (setSpeed d s).drv.dutyA c).toNat ≤ s.cfg.pwmMax :=
  commutate_duties (s := s.setCom { mag := dutyMagnitude d, dir := dutyDirection d }) h c

/-! ### The encoder after an edge -/

@[simp] theorem encoderAfterEdge_prev (cur : HallVector) (e : Encoder) :
    (encoderAfterEdge cur e).prev = cur := rfl

/-- The count follows the direction as step 3 leaves it (41_position_encoder.md R123). -/
theorem encoderAfterEdge_pos (cur : HallVector) (e : Encoder) :
    (encoderAfterEdge cur e).pos =
      if (encoderAfterEdge cur e).dir = .ccw then e.pos + 1#64 else e.pos - 1#64 := by
  show nextPos e.pos (encoderAfterEdge cur e).dir = _
  cases h : (encoderAfterEdge cur e).dir <;> simp [nextPos]

end Sys2Proof.Machine
end

