-- ==== Sys2Proof/Machine/Handlers.lean ====
section
/-! DEFINITION. The four contexts and the operations each issues (60_exceptions.md R213, R221;
44_environment_agents.md R190), and the pseudo-operations of 30_encoding.md R92. The order in which
events are served is the environment's (R217; log 15). -/

namespace Sys2Proof.Machine

/-- The four contexts of the source (60_exceptions.md R221). -/
inductive Context where
  | hallEdge
  | timer
  | reception
  | background
  deriving DecidableEq, Repr

/-- What a diagnostic caller asks (60_exceptions.md R227). -/
inductive Query where
  | position
  | direction
  | error
  | resetError
  deriving DecidableEq, Repr

/-- An event that a context serves. -/
inductive Event where
  /-- A change on a sensor line; the operands are the pin levels when the handler runs
  (41_position_encoder.md R128). -/
  | hallChange (h1 h2 h3 : Bool)
  /-- The periodic timer interrupt (43_speed_controller.md R170). -/
  | timerTick
  /-- An inbound frame with its identifier (44_environment_agents.md R194). -/
  | frameIn (ident : Nat) (len : BitVec 4) (p : Payload)
  /-- The end of the background loop's wait (44_environment_agents.md R190). -/
  | observerPeriod
  /-- A question of the diagnostic caller, issued by the background loop (60_exceptions.md R221). -/
  | diagnostic (q : Query)
  /-- Start-up (70_reset_and_hazards.md R240). -/
  | startUp
  deriving DecidableEq, Repr

/-- The context that serves an event (60_exceptions.md R221). -/
def eventContext : Event → Context
  | .hallChange _ _ _ => .hallEdge
  | .timerTick => .timer
  | .frameIn _ _ _ => .reception
  | .observerPeriod => .background
  | .diagnostic _ => .background
  | .startUp => .background

/-- The operation a diagnostic question is. -/
def queryInstr : Query → Instr
  | .position => .getpos
  | .direction => .getdir
  | .error => .geterr
  | .resetError => .reseterr

/-- The operations that serving an event issues, in order. A frame with an identifier other than
`ID_SET_ACCEL` "causes no operation" (44_environment_agents.md R194). -/
def eventInstrs (c : Config) : Event → List Instr
  | .hallChange h1 h2 h3 => [.sample h1 h2 h3, .edge (hallVector h1 h2 h3)]
  | .timerTick => [.tick]
  | .frameIn ident len p => if ident = c.idSetAccel then [.rxframe len p] else []
  | .observerPeriod => [.observe]
  | .diagnostic q => [queryInstr q]
  | .startUp => [.reset]

/-- A list of operations in list order, inside one atomic step (60_exceptions.md R218). -/
def execAll : List Instr → State → Host.Outcome State Fault Refusal
  | [], s => .next s
  | i :: is, s =>
    match exec i s with
    | .next t => execAll is t
    | .fault f => .fault f
    | .refused r => .refused r

/-- Serve an event: its handler runs to its end with interrupts masked (60_exceptions.md R218, R219). -/
def serve (e : Event) (s : State) : Host.Outcome State Fault Refusal := execAll (eventInstrs s.cfg e) s

/-- The pseudo-operation `HALLIRQ`: `v <- SAMPLE; EDGE v`, the vector passed on being the one SAMPLE
returns (41_position_encoder.md R128). -/
def hallIrq (h1 h2 h3 : Bool) (s : State) : Host.Outcome State Fault Refusal :=
  match exec (.sample h1 h2 h3) s with
  | .next t =>
    match t.result with
    | some (.vector v) => exec (.edge v) t
    | _ => .next t
  | .fault f => .fault f
  | .refused r => .refused r

/-- The pseudo-operation `EDGES [v1, ..., vn]` (30_encoding.md R92). -/
def pseudoEdges (vs : List HallVector) : List Instr := vs.map .edge

/-- The pseudo-operation `TICKS n` (30_encoding.md R92). -/
def pseudoTicks (n : Nat) : List Instr := List.replicate n .tick

/-- The pseudo-operation `RXACCEL x`: a frame of four bytes in the wire's byte order (30_encoding.md
R92, R90). -/
def pseudoRxaccel (c : Config) (x : Word) : Instr := .rxframe 4#4 (payloadOf c.wireBigEndian x)

end Sys2Proof.Machine
end

