-- ==== Sys2Proof/Safety.lean ====
section
/-! DEFINITION. The terms claims use: what the motor sees, the invariants of 10_state.md R41, reserved
words (30_encoding.md R93) and the six-step transitions (R73, R74). -/

namespace Sys2Proof.Machine

/-- What the motor sees of a channel: nothing when its mask bit is 0, else its applied duty
(40_phase_driver_port.md R105). -/
def motorView (d : Driver) (c : Channel) : Option Word :=
  if d.cfgA &&& c.bit = 0#3 then none else some (dutyGet d.dutyA c)

/-- Every duty register holds at most `PWM_MAX` (10_state.md R32, R41 (d)). -/
def DutiesBounded (s : State) : Prop :=
  ∀ c, (dutyGet s.drv.dutyS c).toNat ≤ s.cfg.pwmMax ∧ (dutyGet s.drv.dutyA c).toNat ≤ s.cfg.pwmMax

/-- The invariant every step keeps: the configuration meets the spec's constraints, the duties are
bounded (R41 (d)) and the voltage command is never -2^31 (10_state.md R27). -/
structure BlockInv (s : State) : Prop where
  cfgWf : s.cfg.wf = true
  duties : DutiesBounded s
  vcmd : s.mot.vcmd ≠ 0x80000000#32

/-- The commutation registers hold the last voltage command (10_state.md R41 (e)). -/
def ComFollowsVcmd (s : State) : Prop :=
  s.com.mag.toNat = s.mot.vcmd.toInt.natAbs ∧ (s.com.dir = .cw ↔ s.mot.vcmd.toInt < 0)

/-- A driver word, which only the test bench issues (30_encoding.md R85). -/
def isDriverWord : Instr → Bool
  | .lock => true
  | .unlock => true
  | .cfg _ => true
  | .duty _ _ => true
  | .reset => false
  | .sample _ _ _ => false
  | .edge _ => false
  | .commutate _ => false
  | .setspeed _ => false
  | .tick => false
  | .setaccel _ => false
  | .getpos => false
  | .getdir => false
  | .geterr => false
  | .reseterr => false
  | .observe => false
  | .rxframe _ _ => false

/-! ## Reserved words, by their fields -/

/-- A reserved request or driver word (30_encoding.md R93): an operation code without a meaning, or an
unused bit of `aux`, `arg`, `ch` or `val` that is not zero. For RXFRAME the unused bits are the payload
bytes beyond the declared length (R80). -/
def ReservedWord : Request → Prop
  | .q w =>
    let op := (w.extractLsb' 36 4).toNat
    let aux := (w.extractLsb' 32 4).toNat
    let arg := (w.extractLsb' 0 32).toNat
    (op = 13 ∨ op = 14 ∨ op = 15) ∨
    ((op = 0 ∨ op = 5 ∨ op = 7 ∨ op = 8 ∨ op = 9 ∨ op = 10 ∨ op = 11) ∧ (aux ≠ 0 ∨ arg ≠ 0)) ∨
    ((op = 1 ∨ op = 2 ∨ op = 3) ∧ (aux ≠ 0 ∨ 8 ≤ arg)) ∨
    ((op = 4 ∨ op = 6) ∧ aux ≠ 0) ∨
    (op = 12 ∧ aux < 4 ∧ 2 ^ (8 * aux) ≤ arg)
  | .p w =>
    let dop := (w.extractLsb' 34 2).toNat
    let ch := (w.extractLsb' 32 2).toNat
    let val := (w.extractLsb' 0 32).toNat
    ((dop = 0 ∨ dop = 1) ∧ (ch ≠ 0 ∨ val ≠ 0)) ∨ (dop = 2 ∧ (ch ≠ 0 ∨ 8 ≤ val))

/-! ## Six-step transitions, as pairs of vectors -/

/-- The six CW transitions (30_encoding.md R73). -/
def cwSteps : List (Nat × Nat) := [(1, 5), (5, 4), (4, 6), (6, 2), (2, 3), (3, 1)]

/-- The six CCW transitions, the same steps backwards (30_encoding.md R74). -/
def ccwSteps : List (Nat × Nat) := [(5, 1), (4, 5), (6, 4), (2, 6), (3, 2), (1, 3)]

/-- A pair of vectors as a pair of numbers. -/
def stepKey (prev cur : HallVector) : Nat × Nat := (prev.toNat, cur.toNat)

/-- Every step of the sequence, from the vector `prev` on, is one of the twelve valid transitions. -/
def ValidPath : HallVector → List HallVector → Prop
  | _, [] => True
  | prev, v :: vs => (stepKey prev v ∈ cwSteps ∨ stepKey prev v ∈ ccwSteps) ∧ ValidPath v vs

/-- The number of CCW steps less the number of CW steps of the sequence. -/
def netTicks : HallVector → List HallVector → Int
  | _, [] => 0
  | prev, v :: vs =>
    (if stepKey prev v ∈ ccwSteps then 1 else if stepKey prev v ∈ cwSteps then -1 else 0) +
      netTicks v vs

end Sys2Proof.Machine
end

