-- ==== Sys2Proof/Laws/Exec.lean ====
section
/-! SUPPORT. The next state of each meaning as an equation, and what a step can do. -/

namespace Sys2Proof.Machine

theorem exec_lock (s : State) : exec .lock s = .next (s.setDrv (portLock s.drv)) := rfl

theorem exec_unlock (s : State) : exec .unlock s = .next (s.setDrv (portUnlock s.drv)) := rfl

theorem exec_cfg (m : OutputMask) (s : State) :
    exec (.cfg m) s = .next (s.setDrv (portCfg m s.drv)) := rfl

theorem exec_duty (c : Channel) (v : Word) (s : State) :
    exec (.duty c v) s = .next (s.setDrv (portDuty s.cfg.pwmMax c v s.drv)) := rfl

theorem exec_commutate (v : HallVector) (s : State) : exec (.commutate v) s = .next (commutate v s) :=
  rfl

theorem exec_edge_same (s : State) : exec (.edge s.enc.prev) s = .next s := by
  simp [exec, execEdge]

theorem exec_edge_of_ne {cur : HallVector} {s : State} (h : cur ≠ s.enc.prev) :
    exec (.edge cur) s = .next (commutate cur (s.setEnc (encoderAfterEdge cur s.enc))) := by
  simp [exec, execEdge, h]

theorem exec_setspeed_of_ok {d : Word} (h : d ≠ 0x80000000#32) (s : State) :
    exec (.setspeed d) s = .next (setSpeed d s) := by
  simp [exec, execSetspeed, signedDutyOk, h]

theorem exec_setspeed_reserved (s : State) :
    exec (.setspeed 0x80000000#32) s = .refused .badDuty := by
  simp [exec, execSetspeed, signedDutyOk]

theorem exec_tick (s : State) :
    exec .tick s = .next (setSpeed (motionAfterTick s.cfg s.draws s.mot).vcmd
      ((s.setMot (motionAfterTick s.cfg s.draws s.mot)).draw 5)) := rfl

theorem exec_setaccel (a : Word) (s : State) : exec (.setaccel a) s = .next (storeAccel a s) := rfl

theorem exec_rxframe_of_len {len : BitVec 4} (h : len = 4#4) (p : Payload) (s : State) :
    exec (.rxframe len p) s = .next (storeAccel (wordOfPayload s.cfg.wireBigEndian p) s) := by
  simp [exec, execRxframe, h]

theorem exec_rxframe_drop {len : BitVec 4} (h : len ≠ 4#4) (p : Payload) (s : State) :
    exec (.rxframe len p) s = .next s := by
  simp [exec, execRxframe, h]

/-- What a step can do, when it answers a next state: stay idle, or serve the first request, the rest
being left and the outputs being those of the operation it stands for. -/
theorem step_cases {s t : State} (h : step s = .next t) :
    (s.requests = [] ∧ t = s) ∨
    ∃ w rest i, s.requests = w :: rest ∧ decode w = .instr i ∧ (s.started = true ∨ i = .reset) ∧
      exec i (accept rest s) = .next t := by
  unfold step at h
  split at h
  · left
    exact ⟨‹_›, by simpa using h.symm⟩
  · rename_i w rest hw
    split at h
    · cases h
    · rename_i i hi
      split at h
      · rename_i hm
        right
        refine ⟨w, rest, i, hw, hi, ?_, h⟩
        simpa [mayIssue] using hm
      · cases h

end Sys2Proof.Machine
end

