-- ==== Sys2Proof/Laws/Float.lean ====
section
/-! SUPPORT. What the binary32 narrowing does: the nearest value, ties to even, and where it overflows
(43_speed_controller.md R174). -/

namespace Sys2Proof.Machine

/-! ### Rounding a quotient to a natural -/

/-- The rounded quotient is a nearest multiple of the divisor. -/
theorem roundTiesToEven_nearest (num d : Nat) (hd : 0 < d) (j : Nat) :
    |(roundTiesToEven num d * d : Int) - num| ≤ |(j * d : Int) - num| := by
  have hdiv : (num : Int) = d * (num / d : Nat) + (num % d : Nat) := by
    exact_mod_cast (Nat.div_add_mod num d).symm
  have hr := Nat.mod_lt num hd
  unfold roundTiesToEven
  generalize num / d = q at *
  generalize num % d = r at *
  have e1 : (d : Int) * q = q * d := Int.mul_comm _ _
  have e2 : ((q : Int) + 1) * d = q * d + d := by ring
  have hj : (j : Int) * d ≤ q * d ∨ (q : Int) * d + d ≤ j * d := by
    rcases Nat.lt_or_ge q j with h | h
    · right
      rw [← e2]
      exact_mod_cast Nat.mul_le_mul_right d h
    · left
      exact_mod_cast Nat.mul_le_mul_right d h
  dsimp only
  split
  · push_cast
    rw [e2]
    rw [e1] at hdiv
    clear e1 e2
    generalize (q : Int) * d = qd at *
    generalize (j : Int) * d = jd at *
    rw [abs_of_nonneg (by omega)]
    rcases hj with h | h
    · rw [abs_of_nonpos (by omega)]
      omega
    · rw [abs_of_nonneg (by omega)]
      omega
  · rw [e1] at hdiv
    clear e1 e2
    generalize (q : Int) * d = qd at *
    generalize (j : Int) * d = jd at *
    rw [abs_of_nonpos (by omega)]
    rcases hj with h | h
    · rw [abs_of_nonpos (by omega)]
      omega
    · rw [abs_of_nonneg (by omega)]
      omega

/-- Another multiple is as near only when the rounded quotient is even. -/
theorem roundTiesToEven_tie (num d : Nat) (hd : 0 < d) (j : Nat) (hj : j ≠ roundTiesToEven num d)
    (h : |(j * d : Int) - num| = |(roundTiesToEven num d * d : Int) - num|) :
    roundTiesToEven num d % 2 = 0 := by
  have hdiv : (num : Int) = d * (num / d : Nat) + (num % d : Nat) := by
    exact_mod_cast (Nat.div_add_mod num d).symm
  have hr := Nat.mod_lt num hd
  unfold roundTiesToEven at *
  generalize num / d = q at *
  generalize num % d = r at *
  dsimp only at *
  have e1 : (d : Int) * q = q * d := Int.mul_comm _ _
  have e2 : ((q : Int) + 1) * d = q * d + d := by ring
  have cases_j : j = q ∨ j = q + 1 ∨ (j : Int) * d + d ≤ q * d ∨ ((q : Int) + 2) * d ≤ j * d := by
    rcases Nat.lt_trichotomy j q with h | h | h
    · right; right; left
      have := Nat.mul_le_mul_right d h
      rw [Nat.succ_mul] at this
      exact_mod_cast this
    · left; exact h
    · rcases Nat.lt_or_ge j (q + 2) with h' | h'
      · right; left; omega
      · right; right; right
        exact_mod_cast Nat.mul_le_mul_right d h'
  have e3 : ((q : Int) + 2) * d = q * d + 2 * d := by ring
  split at h
  · rename_i hc
    simp only [if_pos hc] at hj ⊢
    push_cast at h
    rw [e2] at h
    rcases cases_j with rfl | rfl | hl | hl
    · rw [abs_of_nonpos (by omega), abs_of_nonneg (by omega)] at h
      omega
    · exact absurd rfl hj
    · generalize (q : Int) * d = qd at *
      generalize (j : Int) * d = jd at *
      rw [abs_of_nonpos (by omega), abs_of_nonneg (by omega)] at h
      omega
    · rw [e3] at hl
      generalize (q : Int) * d = qd at *
      generalize (j : Int) * d = jd at *
      rw [abs_of_nonneg (by omega), abs_of_nonneg (by omega)] at h
      omega
  · rename_i hc
    simp only [if_neg hc] at hj ⊢
    rcases cases_j with rfl | rfl | hl | hl
    · exact absurd rfl hj
    · push_cast at h
      rw [e2] at h
      generalize (q : Int) * d = qd at *
      rw [abs_of_nonneg (by omega), abs_of_nonpos (by omega)] at h
      omega
    · generalize (q : Int) * d = qd at *
      generalize (j : Int) * d = jd at *
      rw [abs_of_nonpos (by omega), abs_of_nonpos (by omega)] at h
      omega
    · rw [e3] at hl
      generalize (q : Int) * d = qd at *
      generalize (j : Int) * d = jd at *
      rw [abs_of_nonneg (by omega), abs_of_nonpos (by omega)] at h
      omega

/-- The rounded quotient is the floor or the floor plus one. -/
theorem roundTiesToEven_bounds (num d : Nat) :
    num / d ≤ roundTiesToEven num d ∧ roundTiesToEven num d ≤ num / d + 1 := by
  unfold roundTiesToEven
  dsimp only
  split <;> omega

/-! ### The value of a magnitude's pattern -/

/-- The magnitude, in units, of the pattern `p` of a finite magnitude. -/
def patternMag (p : Nat) : Nat :=
  if p / 2 ^ 23 = 0 then p % 2 ^ 23 else (2 ^ 23 + p % 2 ^ 23) * 2 ^ (p / 2 ^ 23 - 1)

theorem f32Neg_iff (x : Word) : f32Neg x = true ↔ 2 ^ 31 ≤ x.toNat := by
  unfold f32Neg
  rw [BitVec.msb_eq_true_iff_two_mul_ge]
  omega

/-- A magnitude is that of the 31 low bits. -/
theorem f32Mag_eq (x : Word) : f32Mag x = patternMag (x.toNat % 2 ^ 31) := by
  have h1 : x.toNat % 2 ^ 31 / 2 ^ 23 = f32Exp x := by
    unfold f32Exp
    omega
  have h2 : x.toNat % 2 ^ 31 % 2 ^ 23 = f32Frac x := by
    unfold f32Frac
    omega
  unfold f32Mag patternMag
  rw [h1, h2]

theorem f32IsFinite_iff (x : Word) : f32IsFinite x = true ↔ x.toNat % 2 ^ 31 < f32InfMag := by
  have := x.isLt
  unfold f32IsFinite f32Exp f32InfMag
  simp only [bne_iff_ne, ne_eq]
  omega

theorem f32IsInf_iff (x : Word) : f32IsInf x = true ↔ x.toNat % 2 ^ 31 = f32InfMag := by
  have := x.isLt
  unfold f32IsInf f32Exp f32Frac f32InfMag
  simp only [Bool.and_eq_true, beq_iff_eq]
  omega

theorem f32IsNaN_iff (x : Word) : f32IsNaN x = true ↔ f32InfMag < x.toNat % 2 ^ 31 := by
  have := x.isLt
  unfold f32IsNaN f32Exp f32Frac f32InfMag
  simp only [Bool.and_eq_true, beq_iff_eq, bne_iff_ne, ne_eq]
  omega

theorem f32Pack_toNat {neg : Bool} {m : Nat} (h : m < 2 ^ 31) :
    (f32Pack neg m).toNat = m + if neg then 2 ^ 31 else 0 := by
  unfold f32Pack
  rw [BitVec.toNat_ofNat]
  apply Nat.mod_eq_of_lt
  split <;> omega

@[simp] theorem f32Neg_pack {neg : Bool} {m : Nat} (h : m < 2 ^ 31) :
    f32Neg (f32Pack neg m) = neg := by
  rw [Bool.eq_iff_iff, f32Neg_iff, f32Pack_toNat h]
  cases neg <;> (simp; try omega)

theorem f32Pack_low {neg : Bool} {m : Nat} (h : m < 2 ^ 31) :
    (f32Pack neg m).toNat % 2 ^ 31 = m := by
  rw [f32Pack_toNat h]
  cases neg <;> simp <;> omega

/-- The value of a magnitude with `k` as its quantum's exponent and `q` as its significand. -/
theorem patternMag_of_parts (k q : Nat) (hq : q ≤ 2 ^ 24) (hk : k = 0 ∨ 2 ^ 23 ≤ q) :
    patternMag (k * 2 ^ 23 + q) = q * 2 ^ k := by
  unfold patternMag
  rcases Nat.lt_or_ge q (2 ^ 23) with h | h
  · obtain rfl : k = 0 := by omega
    rw [if_pos (by omega)]
    omega
  · rcases Nat.lt_or_ge q (2 ^ 24) with h' | h'
    · have e1 : (k * 2 ^ 23 + q) / 2 ^ 23 = k + 1 := by omega
      have e2 : (k * 2 ^ 23 + q) % 2 ^ 23 = q - 2 ^ 23 := by omega
      have e3 : 2 ^ 23 + (q - 2 ^ 23) = q := by omega
      rw [if_neg (by omega), e1, e2, e3, Nat.add_sub_cancel]
    · have hq' : q = 2 ^ 24 := by omega
      have e1 : (k * 2 ^ 23 + q) / 2 ^ 23 = k + 2 := by omega
      have e2 : (k * 2 ^ 23 + q) % 2 ^ 23 = 0 := by omega
      have e3 : k + 2 - 1 = k + 1 := by omega
      rw [if_neg (by omega), e1, e2, e3, Nat.pow_succ, hq']
      ring

/-- Every finite magnitude is a significand below 2^24 at some quantum. -/
theorem patternMag_parts (p : Nat) :
    ∃ k q, q < 2 ^ 24 ∧ (k = 0 ∨ 2 ^ 23 ≤ q) ∧ p = k * 2 ^ 23 + q ∧ patternMag p = q * 2 ^ k := by
  rcases Nat.eq_zero_or_pos (p / 2 ^ 23) with h | h
  · refine ⟨0, p, by omega, .inl rfl, by omega, ?_⟩
    have := patternMag_of_parts 0 p (by omega) (.inl rfl)
    simpa using this
  · refine ⟨p / 2 ^ 23 - 1, 2 ^ 23 + p % 2 ^ 23, by omega, .inr (by omega), by omega, ?_⟩
    have e : p = (p / 2 ^ 23 - 1) * 2 ^ 23 + (2 ^ 23 + p % 2 ^ 23) := by omega
    conv_lhs => rw [e]
    exact patternMag_of_parts _ _ (by omega) (.inr (by omega))

/-! ### The narrowing -/

/-- The quotient lies between 2^23 and 2^24 quanta when the quantum is more than one unit, and below
2^24 quanta in any case. -/
theorem f32Quantum_spec (num den : Nat) :
    num / (den * 2 ^ f32Quantum num den) < 2 ^ 24 ∧
    (f32Quantum num den = 0 ∨ 2 ^ 23 ≤ num / (den * 2 ^ f32Quantum num den)) := by
  rw [← Nat.div_div_eq_div_mul]
  unfold f32Quantum
  generalize num / den = n
  have hlt : n < 2 ^ (n.log2 + 1) := Nat.lt_log2_self
  rcases Nat.lt_or_ge (n.log2 + 1) 25 with h | h
  · have hk : n.log2 + 1 - 24 = 0 := by omega
    rw [hk]
    refine ⟨?_, .inl rfl⟩
    simp only [pow_zero, Nat.div_one]
    exact lt_of_lt_of_le hlt (Nat.pow_le_pow_right (by decide) (by omega))
  · have hn : n ≠ 0 := by
      rintro rfl
      simp at h
    have hge : 2 ^ n.log2 ≤ n := Nat.log2_self_le hn
    obtain ⟨k, hk⟩ : ∃ k, n.log2 = k + 23 := ⟨n.log2 - 23, by omega⟩
    have hk' : n.log2 + 1 - 24 = k := by omega
    rw [hk']
    rw [hk] at hlt hge
    constructor
    · apply Nat.div_lt_of_lt_mul
      calc n < 2 ^ (k + 23 + 1) := hlt
        _ = 2 ^ k * 2 ^ 24 := by rw [← pow_add]
    · right
      rw [Nat.le_div_iff_mul_le (by positivity)]
      calc 2 ^ 23 * 2 ^ k = 2 ^ (k + 23) := by rw [← pow_add, Nat.add_comm]
        _ ≤ n := hge

/-- The pattern before the overflow cut. -/
def f32RoundRaw (num den : Nat) : Nat :=
  f32Quantum num den * 2 ^ 23 + roundTiesToEven num (den * 2 ^ f32Quantum num den)

theorem f32RoundMag_eq (num den : Nat) :
    f32RoundMag num den = min (f32RoundRaw num den) f32InfMag := rfl

theorem f32RoundMag_lt (num den : Nat) : f32RoundMag num den < 2 ^ 31 := by
  rw [f32RoundMag_eq]
  unfold f32InfMag
  omega

/-- The value of the pattern before the overflow cut. -/
theorem patternMag_roundRaw (num den : Nat) :
    patternMag (f32RoundRaw num den) =
      roundTiesToEven num (den * 2 ^ f32Quantum num den) * 2 ^ f32Quantum num den := by
  obtain ⟨h1, h2⟩ := f32Quantum_spec num den
  have hb := roundTiesToEven_bounds num (den * 2 ^ f32Quantum num den)
  unfold f32RoundRaw
  apply patternMag_of_parts
  · omega
  · rcases h2 with h | h
    · exact .inl h
    · exact .inr (by omega)

/-- A pattern either is a multiple of the quantum or lies below 2^23 quanta, and so below the quotient. -/
theorem patternMag_multiple_or_below (p k : Nat) :
    (∃ j, patternMag p = j * 2 ^ k) ∨ patternMag p < 2 ^ 23 * 2 ^ k := by
  obtain ⟨k', q, hq, _, -, hp⟩ := patternMag_parts p
  rw [hp]
  rcases Nat.lt_or_ge k' k with h | h
  · right
    obtain ⟨e, rfl⟩ : ∃ e, k = k' + 1 + e := ⟨k - (k' + 1), by omega⟩
    have h1 : q * 2 ^ k' < 2 ^ 24 * 2 ^ k' := Nat.mul_lt_mul_of_pos_right hq (by positivity)
    have h2 : 2 ^ 24 * 2 ^ k' ≤ 2 ^ 23 * 2 ^ (k' + 1 + e) := by
      rw [← pow_add, ← pow_add]
      exact Nat.pow_le_pow_right (by decide) (by omega)
    omega
  · left
    obtain ⟨e, rfl⟩ : ∃ e, k' = k + e := ⟨k' - k, by omega⟩
    exact ⟨q * 2 ^ e, by rw [pow_add]; ring⟩

/-- The narrowed pattern is a nearest one: no pattern of a finite magnitude is nearer to `num / den`
(the distances are scaled by `den`). -/
theorem f32RoundRaw_nearest (num den : Nat) (hd : 0 < den) (p : Nat) :
    |(patternMag (f32RoundRaw num den) * den : Int) - num| ≤ |(patternMag p * den : Int) - num| := by
  rw [patternMag_roundRaw num den]
  have hdk : 0 < den * 2 ^ f32Quantum num den := by positivity
  have hs := (f32Quantum_spec num den).2
  have near := roundTiesToEven_nearest num (den * 2 ^ f32Quantum num den) hdk
  generalize f32Quantum num den = k at *
  generalize roundTiesToEven num (den * 2 ^ k) = q at *
  have e : ((q * 2 ^ k : Nat) : Int) * den = q * (den * 2 ^ k : Nat) := by push_cast; ring
  rw [e]
  rcases patternMag_multiple_or_below p k with ⟨j, hj⟩ | hlt
  · rw [hj]
    have e' : ((j * 2 ^ k : Nat) : Int) * den = j * (den * 2 ^ k : Nat) := by push_cast; ring
    rw [e']
    exact near j
  · rcases hs with rfl | hs
    · have := near (patternMag p)
      simpa using this
    · refine le_trans (near (2 ^ 23)) ?_
      have h1 : 2 ^ 23 * (den * 2 ^ k) ≤ num :=
        (Nat.le_div_iff_mul_le hdk).mp hs
      have h2 : patternMag p * den ≤ 2 ^ 23 * (den * 2 ^ k) := by
        calc patternMag p * den ≤ (2 ^ 23 * 2 ^ k) * den := Nat.mul_le_mul_right _ (le_of_lt hlt)
          _ = 2 ^ 23 * (den * 2 ^ k) := by ring
      have h1' : (2 : Int) ^ 23 * ((den * 2 ^ k : Nat) : Int) ≤ num := by exact_mod_cast h1
      have h2' : (patternMag p : Int) * den ≤ 2 ^ 23 * ((den * 2 ^ k : Nat) : Int) := by exact_mod_cast h2
      push_cast at *
      rw [abs_of_nonpos (by linarith), abs_of_nonpos (by linarith)]
      linarith

/-- Another magnitude is as near only when the narrowed pattern is even. -/
theorem f32RoundRaw_tie (num den : Nat) (hd : 0 < den) (p : Nat)
    (hne : patternMag p ≠ patternMag (f32RoundRaw num den))
    (h : |(patternMag p * den : Int) - num| = |(patternMag (f32RoundRaw num den) * den : Int) - num|) :
    f32RoundRaw num den % 2 = 0 := by
  have hdk : 0 < den * 2 ^ f32Quantum num den := by positivity
  suffices roundTiesToEven num (den * 2 ^ f32Quantum num den) % 2 = 0 by
    unfold f32RoundRaw
    omega
  rw [patternMag_roundRaw num den] at h hne
  have hs := (f32Quantum_spec num den).2
  have tie := roundTiesToEven_tie num (den * 2 ^ f32Quantum num den) hdk
  have near := roundTiesToEven_nearest num (den * 2 ^ f32Quantum num den) hdk
  generalize f32Quantum num den = k at *
  generalize roundTiesToEven num (den * 2 ^ k) = q at *
  have e : ((q * 2 ^ k : Nat) : Int) * den = q * (den * 2 ^ k : Nat) := by push_cast; ring
  rw [e] at h
  rcases patternMag_multiple_or_below p k with ⟨j, hj⟩ | hlt
  · rw [hj] at h hne
    have e' : ((j * 2 ^ k : Nat) : Int) * den = j * (den * 2 ^ k : Nat) := by push_cast; ring
    rw [e'] at h
    exact tie j (fun hjq => hne (by rw [hjq])) h
  · rcases hs with rfl | hs
    · refine tie (patternMag p) (fun hjq => hne (by rw [hjq]; simp)) ?_
      simpa using h
    · exfalso
      have h1 : 2 ^ 23 * (den * 2 ^ k) ≤ num := (Nat.le_div_iff_mul_le hdk).mp hs
      have h2 : patternMag p * den < 2 ^ 23 * (den * 2 ^ k) := by
        calc patternMag p * den < (2 ^ 23 * 2 ^ k) * den := Nat.mul_lt_mul_of_pos_right hlt hd
          _ = 2 ^ 23 * (den * 2 ^ k) := by ring
      have h1' : (2 : Int) ^ 23 * ((den * 2 ^ k : Nat) : Int) ≤ num := by exact_mod_cast h1
      have h2' : (patternMag p : Int) * den < 2 ^ 23 * ((den * 2 ^ k : Nat) : Int) := by exact_mod_cast h2
      have h3 := near (2 ^ 23)
      push_cast at *
      rw [← h, abs_of_nonpos (by linarith), abs_of_nonpos (by linarith)] at h3
      linarith

/-- In the top binade: the significand does not round up to 2^24 below half a quantum under it. -/
theorem roundTiesToEven_top {num d h : Nat} (hd : 0 < d) (hh : d = 2 * h) (hq : num / d < 2 ^ 24) :
    253 * 2 ^ 23 + roundTiesToEven num d < 0x7F800000 ↔ num < (2 ^ 24 - 1) * d + h := by
  have hm := Nat.div_add_mod num d
  have hr := Nat.mod_lt num hd
  have hc : d * (num / d) = num / d * d := Nat.mul_comm _ _
  unfold roundTiesToEven
  dsimp only
  generalize num % d = r at *
  generalize num / d = q at *
  rcases Nat.lt_or_ge q (2 ^ 24 - 1) with hlt | hge
  · refine iff_of_true ?_ ?_
    · split <;> omega
    · have := Nat.mul_le_mul_right d (Nat.succ_le_of_lt hlt)
      rw [Nat.succ_mul] at this
      omega
  · have hq' : q = 2 ^ 24 - 1 := by omega
    have hqd : q * d = (2 ^ 24 - 1) * d := by rw [hq']
    split <;> omega

/-- The magnitude's pattern is below infinity's exactly when the quotient is below the largest finite
magnitude plus half its quantum, `(2^25 - 1) * 2^252` units. -/
theorem f32RoundRaw_lt_inf_iff (num den : Nat) (hd : 0 < den) :
    f32RoundRaw num den < f32InfMag ↔ num < (2 ^ 25 - 1) * 2 ^ 252 * den := by
  obtain ⟨h1, h2⟩ := f32Quantum_spec num den
  have hb := roundTiesToEven_bounds num (den * 2 ^ f32Quantum num den)
  have hdk : 0 < den * 2 ^ f32Quantum num den := by positivity
  have hq1 := Nat.div_mul_le_self num (den * 2 ^ f32Quantum num den)
  have hq2 := Nat.lt_div_mul_add (a := num) hdk
  unfold f32RoundRaw f32InfMag
  rcases Nat.lt_trichotomy (f32Quantum num den) 253 with hk | hk | hk
  · -- far below
    refine iff_of_true (by omega) ?_
    have : num < 2 ^ 24 * (den * 2 ^ f32Quantum num den) := by
      have := Nat.mul_le_mul_right (den * 2 ^ f32Quantum num den) (Nat.succ_le_of_lt h1)
      rw [Nat.succ_mul] at this
      omega
    have hp : 2 ^ f32Quantum num den ≤ 2 ^ 252 := Nat.pow_le_pow_right (by decide) (by omega)
    calc num < 2 ^ 24 * (den * 2 ^ f32Quantum num den) := this
      _ ≤ 2 ^ 24 * (den * 2 ^ 252) := Nat.mul_le_mul_left _ (Nat.mul_le_mul_left _ hp)
      _ ≤ (2 ^ 25 - 1) * 2 ^ 252 * den := by
        have : (2 : Nat) ^ 24 ≤ 2 ^ 25 - 1 := by norm_num
        calc 2 ^ 24 * (den * 2 ^ 252) = 2 ^ 24 * (2 ^ 252 * den) := by ring
          _ ≤ (2 ^ 25 - 1) * (2 ^ 252 * den) := Nat.mul_le_mul_right _ this
          _ = (2 ^ 25 - 1) * 2 ^ 252 * den := by ring
  · rw [hk] at h1 h2 hb hdk hq1 hq2 ⊢
    have hp : (2 : Nat) ^ 253 = 2 * 2 ^ 252 := by norm_num
    have heq : (2 ^ 25 - 1) * 2 ^ 252 * den = (2 ^ 24 - 1) * (den * 2 ^ 253) + den * 2 ^ 252 := by
      rw [hp]
      have : (2 : Nat) ^ 25 - 1 = (2 ^ 24 - 1) * 2 + 1 := by norm_num
      rw [this]
      ring
    have hD : den * 2 ^ 253 = 2 * (den * 2 ^ 252) := by rw [hp]; ring
    rw [heq]
    exact roundTiesToEven_top hdk hD h1
  · refine iff_of_false (by omega) ?_
    have hq : 2 ^ 23 ≤ num / (den * 2 ^ f32Quantum num den) := by omega
    have h3 : 2 ^ 23 * (den * 2 ^ f32Quantum num den) ≤ num := (Nat.le_div_iff_mul_le hdk).mp hq
    have hp : 2 ^ 254 ≤ 2 ^ f32Quantum num den := Nat.pow_le_pow_right (by decide) (by omega)
    have h4 : 2 ^ 23 * (den * 2 ^ 254) ≤ 2 ^ 23 * (den * 2 ^ f32Quantum num den) :=
      Nat.mul_le_mul_left _ (Nat.mul_le_mul_left _ hp)
    have h5 : (2 ^ 25 - 1) * 2 ^ 252 * den ≤ 2 ^ 23 * (den * 2 ^ 254) := by
      have : (2 : Nat) ^ 25 - 1 ≤ 2 ^ 23 * 4 := by norm_num
      calc (2 ^ 25 - 1) * 2 ^ 252 * den ≤ (2 ^ 23 * 4) * 2 ^ 252 * den :=
            Nat.mul_le_mul_right _ (Nat.mul_le_mul_right _ this)
        _ = 2 ^ 23 * (den * 2 ^ 254) := by ring
    omega

end Sys2Proof.Machine
end

