-- ==== Sys2Proof/Laws/Decode.lean ====
section
/-! SUPPORT. The fields of an assembled word, and a word from its fields (30_encoding.md R79, R85). -/

namespace Sys2Proof

theorem toNat_fieldsQ (op aux : BitVec 4) (arg : Word) :
    (op ++ aux ++ arg).toNat = op.toNat * 2 ^ 36 + aux.toNat * 2 ^ 32 + arg.toNat := by
  have h1 := arg.isLt
  have h2 := aux.isLt
  rw [BitVec.toNat_append, BitVec.toNat_append, ← Nat.shiftLeft_add_eq_or_of_lt h1,
    ← Nat.shiftLeft_add_eq_or_of_lt h2, Nat.shiftLeft_eq, Nat.shiftLeft_eq]
  omega

theorem toNat_fieldsP (dop ch : BitVec 2) (val : Word) :
    (dop ++ ch ++ val).toNat = dop.toNat * 2 ^ 34 + ch.toNat * 2 ^ 32 + val.toNat := by
  have h1 := val.isLt
  have h2 := ch.isLt
  rw [BitVec.toNat_append, BitVec.toNat_append, ← Nat.shiftLeft_add_eq_or_of_lt h1,
    ← Nat.shiftLeft_add_eq_or_of_lt h2, Nat.shiftLeft_eq, Nat.shiftLeft_eq]
  omega

theorem toNat_extract {w : Nat} (x : BitVec w) (lo n : Nat) :
    (x.extractLsb' lo n).toNat = x.toNat / 2 ^ lo % 2 ^ n := by
  simp [BitVec.extractLsb'_toNat, Nat.shiftRight_eq_div_pow]

@[simp] theorem fieldsQ_op (op aux : BitVec 4) (arg : Word) :
    (op ++ aux ++ arg).extractLsb' 36 4 = op := by
  have := op.isLt
  have := aux.isLt
  have := arg.isLt
  apply BitVec.eq_of_toNat_eq
  rw [toNat_extract, toNat_fieldsQ]
  omega

@[simp] theorem fieldsQ_aux (op aux : BitVec 4) (arg : Word) :
    (op ++ aux ++ arg).extractLsb' 32 4 = aux := by
  have := op.isLt
  have := aux.isLt
  have := arg.isLt
  apply BitVec.eq_of_toNat_eq
  rw [toNat_extract, toNat_fieldsQ]
  omega

@[simp] theorem fieldsQ_arg (op aux : BitVec 4) (arg : Word) :
    (op ++ aux ++ arg).extractLsb' 0 32 = arg := by
  have := arg.isLt
  apply BitVec.eq_of_toNat_eq
  rw [toNat_extract, toNat_fieldsQ]
  omega

@[simp] theorem fieldsP_dop (dop ch : BitVec 2) (val : Word) :
    (dop ++ ch ++ val).extractLsb' 34 2 = dop := by
  have := dop.isLt
  have := ch.isLt
  have := val.isLt
  apply BitVec.eq_of_toNat_eq
  rw [toNat_extract, toNat_fieldsP]
  omega

@[simp] theorem fieldsP_ch (dop ch : BitVec 2) (val : Word) :
    (dop ++ ch ++ val).extractLsb' 32 2 = ch := by
  have := dop.isLt
  have := ch.isLt
  have := val.isLt
  apply BitVec.eq_of_toNat_eq
  rw [toNat_extract, toNat_fieldsP]
  omega

@[simp] theorem fieldsP_val (dop ch : BitVec 2) (val : Word) :
    (dop ++ ch ++ val).extractLsb' 0 32 = val := by
  have := val.isLt
  apply BitVec.eq_of_toNat_eq
  rw [toNat_extract, toNat_fieldsP]
  omega

/-- A request word is made of its three fields. -/
theorem fieldsQ_eta (w : BitVec 40) :
    w.extractLsb' 36 4 ++ w.extractLsb' 32 4 ++ w.extractLsb' 0 32 = w := by
  have := w.isLt
  apply BitVec.eq_of_toNat_eq
  rw [toNat_fieldsQ, toNat_extract, toNat_extract, toNat_extract]
  omega

/-- A driver word is made of its three fields. -/
theorem fieldsP_eta (w : BitVec 36) :
    w.extractLsb' 34 2 ++ w.extractLsb' 32 2 ++ w.extractLsb' 0 32 = w := by
  have := w.isLt
  apply BitVec.eq_of_toNat_eq
  rw [toNat_fieldsP, toNat_extract, toNat_extract, toNat_extract]
  omega

@[simp] theorem argOfVector_low (v : BitVec 3) : (argOfVector v).extractLsb' 0 3 = v := by
  revert v
  decide

@[simp] theorem argOfVector_high (v : BitVec 3) : (argOfVector v).extractLsb' 3 29 = 0#29 := by
  revert v
  decide

/-- A main operand with nothing above its low three bits is a vector's. -/
theorem argOfVector_eta {arg : Word} (h : arg.extractLsb' 3 29 = 0#29) :
    argOfVector (arg.extractLsb' 0 3) = arg := by
  have h' := congrArg BitVec.toNat h
  rw [toNat_extract] at h'
  have := arg.isLt
  have hl : (arg.extractLsb' 0 3).toNat < 8 := BitVec.isLt _
  apply BitVec.eq_of_toNat_eq
  have : (argOfVector (arg.extractLsb' 0 3)).toNat = (arg.extractLsb' 0 3).toNat := by
    unfold argOfVector
    rw [BitVec.toNat_append, ← Nat.shiftLeft_add_eq_or_of_lt hl]
    simp
  rw [this, toNat_extract]
  simp at h'
  omega

theorem toNat_payload (p : Payload) :
    (argOfPayload p).toNat =
      p.p3.toNat * 2 ^ 24 + p.p2.toNat * 2 ^ 16 + p.p1.toNat * 2 ^ 8 + p.p0.toNat := by
  have h0 := p.p0.isLt
  have h1 := p.p1.isLt
  have h2 := p.p2.isLt
  unfold argOfPayload
  rw [BitVec.toNat_append, BitVec.toNat_append, BitVec.toNat_append,
    ← Nat.shiftLeft_add_eq_or_of_lt h0, ← Nat.shiftLeft_add_eq_or_of_lt h1,
    ← Nat.shiftLeft_add_eq_or_of_lt h2, Nat.shiftLeft_eq, Nat.shiftLeft_eq, Nat.shiftLeft_eq]
  omega

@[simp] theorem payloadOfArg_argOfPayload (p : Payload) : payloadOfArg (argOfPayload p) = p := by
  have h0 := p.p0.isLt
  have h1 := p.p1.isLt
  have h2 := p.p2.isLt
  have h3 := p.p3.isLt
  have e := toNat_payload p
  rcases p with ⟨p0, p1, p2, p3⟩
  simp only [payloadOfArg, Payload.mk.injEq]
  refine ⟨?_, ?_, ?_, ?_⟩ <;> apply BitVec.eq_of_toNat_eq <;> rw [toNat_extract, e] <;>
    dsimp only at * <;> omega

@[simp] theorem argOfPayload_payloadOfArg (arg : Word) : argOfPayload (payloadOfArg arg) = arg := by
  have := arg.isLt
  apply BitVec.eq_of_toNat_eq
  rw [toNat_payload]
  simp only [payloadOfArg, toNat_extract]
  omega

end Sys2Proof
end

