-- ==== Sys2Proof/Laws/PerInstr.lean ====
section
/-! SUPPORT. Statements about every operation as syntax, one lemma per constructor. -/

namespace Sys2Proof.Laws

/-- The format and the operation code of a word (30_encoding.md R79, R85). -/
def opcodeField : Request → BitVec 4 ⊕ BitVec 2
  | .q w => .inl (w.extractLsb' 36 4)
  | .p w => .inr (w.extractLsb' 34 2)

/-- The format and the operation code of the operation's row of spec/opcode_table.json. -/
def opcodeRow : Instr → BitVec 4 ⊕ BitVec 2
  | .reset => .inl 0x0#4
  | .sample _ _ _ => .inl 0x1#4
  | .edge _ => .inl 0x2#4
  | .commutate _ => .inl 0x3#4
  | .setspeed _ => .inl 0x4#4
  | .tick => .inl 0x5#4
  | .setaccel _ => .inl 0x6#4
  | .getpos => .inl 0x7#4
  | .getdir => .inl 0x8#4
  | .geterr => .inl 0x9#4
  | .reseterr => .inl 0xA#4
  | .observe => .inl 0xB#4
  | .rxframe _ _ => .inl 0xC#4
  | .lock => .inr 0#2
  | .unlock => .inr 1#2
  | .cfg _ => .inr 2#2
  | .duty _ _ => .inr 3#2

namespace OpcodeField

/-- The operation's word has the format and the operation code of its row. -/
def Statement (i : Instr) : Prop := opcodeField (encode i) = opcodeRow i

theorem ofQ (op aux : BitVec 4) (arg : Word) : opcodeField (wordQ op aux arg) = .inl op := by
  simp only [opcodeField, wordQ, fieldsQ_op]

theorem ofP (dop ch : BitVec 2) (val : Word) : opcodeField (wordP dop ch val) = .inr dop := by
  simp only [opcodeField, wordP, fieldsP_dop]

theorem reset : Statement .reset := ofQ _ _ _

theorem sample (h1 h2 h3 : Bool) : Statement (.sample h1 h2 h3) := ofQ _ _ _

theorem edge (cur : HallVector) : Statement (.edge cur) := ofQ _ _ _

theorem commutate (v : HallVector) : Statement (.commutate v) := ofQ _ _ _

theorem setspeed (d : Word) : Statement (.setspeed d) := ofQ _ _ _

theorem tick : Statement .tick := ofQ _ _ _

theorem setaccel (a : Word) : Statement (.setaccel a) := ofQ _ _ _

theorem getpos : Statement .getpos := ofQ _ _ _

theorem getdir : Statement .getdir := ofQ _ _ _

theorem geterr : Statement .geterr := ofQ _ _ _

theorem reseterr : Statement .reseterr := ofQ _ _ _

theorem observe : Statement .observe := ofQ _ _ _

theorem rxframe (len : BitVec 4) (p : Payload) : Statement (.rxframe len p) := ofQ _ _ _

theorem lock : Statement .lock := ofP _ _ _

theorem unlock : Statement .unlock := ofP _ _ _

theorem cfg (mask : OutputMask) : Statement (.cfg mask) := ofP _ _ _

theorem duty (ch : Channel) (value : Word) : Statement (.duty ch value) := ofP _ _ _

end OpcodeField

end Sys2Proof.Laws
end

