-- ==== Sys2Proof/Certificates/Slice0/Obligations.lean ====
section
/-! DEFINITION. The statements for the provers. Each docstring names the rules of spec/ it formalises. -/

open Sys2Proof Sys2Proof.Machine

/-! ## Encoding -/

/-- 30_encoding.md R79, R80, R85: decoding the word of a well-formed operation gives it back. -/
def Obligations.DecodeOfEncodeIsTheOperation : Prop :=
  ∀ i : Instr, i.wf = true → decode (encode i) = .instr i

/-- 30_encoding.md R79, R80, R85, R95: a word that decodes is the word of the operation it decodes to,
which is well formed; no bit of a word is ignored. -/
def Obligations.EncodeOfDecodeIsTheWord : Prop :=
  ∀ (r : Request) (i : Instr), decode r = .instr i → encode i = r ∧ i.wf = true

/-- 30_encoding.md R80, R85: words written out from the tables decode to their operations. -/
def Obligations.WordsOfTheTablesDecode : Prop :=
  decode (.q 0x1000000005#40) = .instr (.sample true false true) ∧
  decode (.q 0x2000000005#40) = .instr (.edge 5#3) ∧
  decode (.q 0x40FFFFFED4#40) = .instr (.setspeed (BitVec.ofInt 32 (-300))) ∧
  decode (.q 0x6042C80000#40) = .instr (.setaccel 0x42C80000#32) ∧
  decode (.q 0xC442FB53D1#40) = .instr (.rxframe 4#4 ⟨0xD1#8, 0x53#8, 0xFB#8, 0x42#8⟩) ∧
  decode (.p 0xE0000012C#36) = .instr (.duty .ch2 300#32)

/-- 30_encoding.md R93: a reserved word is refused by the decoder, and by the step that
serves it (log 2), never a no-op. Where R94 (e) gives a reason of its own as well (SETSPEED with -2^31 and
a non-zero `aux`), that the reason is R93's is the model's choice (log 19). -/
def Obligations.ReservedWordsAreRefused : Prop :=
  ∀ w : Request, ReservedWord w →
    decode w = .refuse .reservedWord ∧
    ∀ (s : State) (rest : List Request), s.requests = w :: rest → step s = .refused .reservedWord

/-- 30_encoding.md R94 (a), (e): DUTY with channel 3 and SETSPEED with -2^31 are refused, each by its own
name; the operation SETSPEED refuses the reserved duty too. -/
def Obligations.ReservedOperandsAreRefused : Prop :=
  (∀ (val : Word) (s : State) (rest : List Request),
    s.requests = .p (3#2 ++ 3#2 ++ val) :: rest → step s = .refused .badChannel) ∧
  (∀ (s : State) (rest : List Request),
    s.requests = .q 0x4080000000#40 :: rest → step s = .refused .badDuty) ∧
  (∀ s : State, exec (.setspeed 0x80000000#32) s = .refused .badDuty)

/-! ## The step -/

/-- 20_memory.md R56, R57: a step is the operation the first word stands for, at the state in which that
word has left the list and the outputs are cleared (log 2, log 4). -/
def Obligations.StepRunsTheDecodedOperation : Prop :=
  ∀ (s : State) (w : Request) (rest : List Request) (i : Instr),
    s.requests = w :: rest → decode w = .instr i → (s.started = true ∨ i = .reset) →
    step s = exec i { s with requests := rest, emitted := [], result := none }

/-- 70_reset_and_hazards.md R244: with nothing presented the block is idle (log 3). -/
def Obligations.StepWithNothingPresentedIsIdle : Prop :=
  ∀ s : State, s.requests = [] → step s = .next s

/-- 70_reset_and_hazards.md R241, 93_implementation_defined.md U10: before the first RESET every other
operation faults (log 11). -/
def Obligations.OperationBeforeResetFaults : Prop :=
  ∀ (s : State) (w : Request) (rest : List Request) (i : Instr),
    s.requests = w :: rest → decode w = .instr i → s.started = false → i ≠ .reset →
    step s = .fault .unwrittenRegister

/-- 60_exceptions.md R210: no operation that a word stands for can fail; every one completes. -/
def Obligations.EveryPresentedOperationCompletes : Prop :=
  ∀ (s : State) (w : Request) (rest : List Request) (i : Instr),
    s.requests = w :: rest → decode w = .instr i → s.started = true →
    ∃ t, step s = .next t ∧ t.started = true ∧ t.requests = rest

/-- 10_state.md R34: the words are served in list order, one a step (log 2). -/
def Obligations.WordsAreServedInListOrder : Prop :=
  ∀ (k : Nat) (s t : State), Host.Core.run Sys2Proof.core k s = .next t →
    t.requests = s.requests.drop k

/-! ## Accessors and the sampled vector -/

/-- 30_encoding.md R70, 41_position_encoder.md R120: SAMPLE returns the vector whose bit 0 is H1, bit 1
H2 and bit 2 H3, and changes no register. -/
def Obligations.SampleReturnsTheVectorOfThePins : Prop :=
  ∀ (h1 h2 h3 : Bool) (s : State), ∃ v : HallVector,
    v.getLsbD 0 = h1 ∧ v.getLsbD 1 = h2 ∧ v.getLsbD 2 = h3 ∧
    exec (.sample h1 h2 h3) s = .next { s with result := some (.vector v) } ∧
    encode (.sample h1 h2 h3) = .q (0x1#4 ++ 0#4 ++ 0#29 ++ v)

/-- 41_position_encoder.md R124, R125, R126: GETPOS, GETDIR and GETERR return their register, CW as 0 and
CCW as 1, and change no register. -/
def Obligations.AccessorsReturnTheirRegisters : Prop :=
  (encode .getpos = .q 0x7000000000#40 ∧ encode .getdir = .q 0x8000000000#40 ∧
    encode .geterr = .q 0x9000000000#40) ∧
  ∀ s : State,
    exec .getpos s = .next { s with result := some (.position s.enc.pos) } ∧
    exec .getdir s =
      .next { s with result := some (.direction (if s.enc.dir = .cw then 0#1 else 1#1)) } ∧
    exec .geterr s =
      .next { s with result := some (.error (if s.enc.err = true then 1#1 else 0#1)) }

/-- 41_position_encoder.md R127: RESETERR clears the error flag and changes nothing else. -/
def Obligations.ReseterrClearsOnlyTheErrorFlag : Prop :=
  encode .reseterr = .q 0xA000000000#40 ∧
  ∀ s : State, exec .reseterr s =
    .next { s with enc := { prev := s.enc.prev, pos := s.enc.pos, dir := s.enc.dir, err := false } }

/-- 43_speed_controller.md R171: SETACCEL stores any pattern whole and changes nothing else. -/
def Obligations.SetaccelStoresThePattern : Prop :=
  ∀ (a : Word) (s : State),
    encode (.setaccel a) = .q (0x6#4 ++ 0#4 ++ a) ∧
    exec (.setaccel a) s =
      .next { s with mot := { accel := a, speed := s.mot.speed, vcmd := s.mot.vcmd } }

/-! ## The phase-driver port -/

/-- 40_phase_driver_port.md R101: LOCK sets `drv.locked` and changes nothing else; locked twice is
locked. -/
def Obligations.LockSetsOnlyTheLock : Prop :=
  encode .lock = .p 0#36 ∧
  ∀ s : State, exec .lock s =
    .next { s with drv :=
      { locked := true, cfgS := s.drv.cfgS, cfgA := s.drv.cfgA, dutyS := s.drv.dutyS,
        dutyA := s.drv.dutyA } }

/-- 40_phase_driver_port.md R102: UNLOCK copies the four shadow registers to the applied ones and clears
the lock; unlocked and with equal copies it changes nothing. -/
def Obligations.UnlockAppliesTheShadowRegisters : Prop :=
  encode .unlock = .p 0x400000000#36 ∧
  ∀ s : State,
    exec .unlock s =
      .next { s with drv :=
        { locked := false, cfgS := s.drv.cfgS, cfgA := s.drv.cfgS, dutyS := s.drv.dutyS,
          dutyA := s.drv.dutyS } } ∧
    (s.drv.locked = false → s.drv.cfgA = s.drv.cfgS → s.drv.dutyA = s.drv.dutyS →
      exec .unlock s = .next s)

/-- 40_phase_driver_port.md R104: CFG writes the shadow mask, and the applied mask when unlocked; the
duties are unchanged. -/
def Obligations.CfgWritesTheMask : Prop :=
  ∀ (m : OutputMask) (s : State),
    encode (.cfg m) = .p (2#2 ++ 0#2 ++ 0#29 ++ m) ∧
    exec (.cfg m) s =
      .next { s with drv :=
        { locked := s.drv.locked, cfgS := m,
          cfgA := if s.drv.locked = true then s.drv.cfgA else m,
          dutyS := s.drv.dutyS, dutyA := s.drv.dutyA } }

/-- 40_phase_driver_port.md R103: DUTY stores the least of the value and `PWM_MAX` in the channel's
shadow register, and in its applied register when unlocked; the other channels, the masks and the lock
are unchanged, and so is every other register. -/
def Obligations.DutyStoresTheClampedValue : Prop :=
  ∀ (ch : Channel) (value : Word) (s : State),
    encode (.duty ch value) = .p (3#2 ++ ch.number ++ value) ∧
    ∃ t, exec (.duty ch value) s = .next t ∧
      (dutyGet t.drv.dutyS ch).toNat = min value.toNat s.cfg.pwmMax ∧
      (s.drv.locked = false → (dutyGet t.drv.dutyA ch).toNat = min value.toNat s.cfg.pwmMax) ∧
      (s.drv.locked = true → t.drv.dutyA = s.drv.dutyA) ∧
      (∀ c, c ≠ ch → dutyGet t.drv.dutyS c = dutyGet s.drv.dutyS c ∧
        dutyGet t.drv.dutyA c = dutyGet s.drv.dutyA c) ∧
      t.drv.locked = s.drv.locked ∧ t.drv.cfgS = s.drv.cfgS ∧ t.drv.cfgA = s.drv.cfgA ∧
      t = { s with drv := t.drv }

/-- 40_phase_driver_port.md R100: under the lock any number of LOCK, CFG and DUTY leaves the applied
registers as they are, and UNLOCK then applies all four shadow registers; unlocked, with equal copies,
any number of CFG and DUTY keeps the copies equal. -/
def Obligations.TheLockDefersApplication : Prop :=
  ∀ (is : List Instr) (s : State),
    (s.drv.locked = true →
      (∀ i ∈ is, i = .lock ∨ (∃ m, i = .cfg m) ∨ (∃ c v, i = .duty c v)) →
      ∃ t u, execAll is s = .next t ∧ exec .unlock t = .next u ∧
        t.drv.locked = true ∧ t.drv.cfgA = s.drv.cfgA ∧ t.drv.dutyA = s.drv.dutyA ∧
        u.drv.cfgA = t.drv.cfgS ∧ u.drv.dutyA = t.drv.dutyS) ∧
    (s.drv.locked = false → s.drv.cfgA = s.drv.cfgS → s.drv.dutyA = s.drv.dutyS →
      (∀ i ∈ is, (∃ m, i = .cfg m) ∨ (∃ c v, i = .duty c v)) →
      ∃ t, execAll is s = .next t ∧ t.drv.cfgA = t.drv.cfgS ∧ t.drv.dutyA = t.drv.dutyS)

/-- 42_commutation_engine.md R159: no operation but RESET, the driver words and the four that commutate
writes a driver register or sends a driver word. -/
def Obligations.NothingElseWritesThePort : Prop :=
  ∀ (i : Instr) (s t : State), exec i s = .next t → isDriverWord i = false →
    i ≠ .reset → i ≠ .tick → (∀ v, i ≠ .edge v) → (∀ v, i ≠ .commutate v) → (∀ d, i ≠ .setspeed d) →
    t.drv = s.drv ∧ t.emitted = s.emitted

/-! ## The position encoder -/

/-- 41_position_encoder.md R121, R122, R123: EDGE with the stored vector does nothing at all; with
another vector it classifies the step by the twelve valid transitions, writes the direction on a valid
one and the error flag on any other, counts by one in the resulting direction modulo 2^64, stores the
vector and commutates. -/
def Obligations.EdgeClassifiesCountsAndCommutates : Prop :=
  ∀ (cur : HallVector) (s : State),
    encode (.edge cur) = .q (0x2#4 ++ 0#4 ++ 0#29 ++ cur) ∧
    (cur = s.enc.prev → exec (.edge cur) s = .next s) ∧
    (cur ≠ s.enc.prev →
      ∃ (e : Encoder) (t : State),
        e.prev = cur ∧
        (stepKey s.enc.prev cur ∈ [(1, 5), (5, 4), (4, 6), (6, 2), (2, 3), (3, 1)] →
          e.dir = .cw ∧ e.err = s.enc.err) ∧
        (stepKey s.enc.prev cur ∈ [(5, 1), (4, 5), (6, 4), (2, 6), (3, 2), (1, 3)] →
          e.dir = .ccw ∧ e.err = s.enc.err) ∧
        (stepKey s.enc.prev cur ∉ [(1, 5), (5, 4), (4, 6), (6, 2), (2, 3), (3, 1)] →
          stepKey s.enc.prev cur ∉ [(5, 1), (4, 5), (6, 4), (2, 6), (3, 2), (1, 3)] →
          e.dir = s.enc.dir ∧ e.err = true) ∧
        (e.dir = .ccw → e.pos = s.enc.pos + 1#64) ∧
        (e.dir = .cw → e.pos = s.enc.pos - 1#64) ∧
        exec (.edge cur) s = exec (.commutate cur) { s with enc := e } ∧
        exec (.edge cur) s = .next t ∧ t.enc = e ∧ t.mot = s.mot ∧ t.com = s.com ∧ t.obs = s.obs ∧
        t.cfg = s.cfg ∧ t.started = s.started ∧ t.requests = s.requests ∧ t.result = s.result)

/-- 10_state.md R41 (a): a processed edge stores its vector and changes the position by exactly one; no
other operation but RESET changes either, and an edge with the stored vector is none. -/
def Obligations.OnlyAProcessedEdgeMovesThePosition : Prop :=
  ∀ (i : Instr) (s t : State), exec i s = .next t → i ≠ .reset →
    (∀ cur, i = .edge cur → cur ≠ s.enc.prev →
      t.enc.prev = cur ∧ (t.enc.pos = s.enc.pos + 1#64 ∨ t.enc.pos = s.enc.pos - 1#64)) ∧
    ((∀ cur, i = .edge cur → cur = s.enc.prev) →
      t.enc.pos = s.enc.pos ∧ t.enc.prev = s.enc.prev)

/-- 10_state.md R41 (b), (c): the measured direction changes only in an edge with a valid code; the error
flag is set only in an edge with an INVALID code and cleared only by RESETERR. RESET apart. -/
def Obligations.DirectionAndErrorChangeOnlyAsStated : Prop :=
  ∀ (i : Instr) (s t : State), exec i s = .next t → i ≠ .reset →
    (t.enc.dir ≠ s.enc.dir → ∃ cur, i = .edge cur ∧
      (stepKey s.enc.prev cur ∈ cwSteps ∨ stepKey s.enc.prev cur ∈ ccwSteps)) ∧
    (s.enc.err = false → t.enc.err = true → ∃ cur, i = .edge cur ∧ cur ≠ s.enc.prev ∧
      stepKey s.enc.prev cur ∉ cwSteps ∧ stepKey s.enc.prev cur ∉ ccwSteps) ∧
    (s.enc.err = true → t.enc.err = false → i = .reseterr)

/-- 41_position_encoder.md R129 (a), (c): along a sequence of valid six-step transitions the position
moves by the number of CCW steps less the number of CW steps (modulo 2^64), and the error flag is left
as it was. -/
def Obligations.ValidSequencesCountTheirSteps : Prop :=
  ∀ (vs : List HallVector) (s : State), ValidPath s.enc.prev vs →
    ∃ t, execAll (pseudoEdges vs) s = .next t ∧ t.enc.err = s.enc.err ∧
      t.enc.pos = s.enc.pos + BitVec.ofInt 64 (netTicks s.enc.prev vs)

/-- 10_state.md R24, 41_position_encoder.md R130: the error flag changes nothing but itself and what
GETERR returns. -/
def Obligations.NoOperationReadsTheErrorFlag : Prop :=
  ∀ (i : Instr) (s t : State) (b : Bool), exec i s = .next t →
    ∃ t', exec i { s with enc := { s.enc with err := b } } = .next t' ∧
      { t' with enc := { t'.enc with err := t.enc.err }, result := t.result } = t ∧
      (i ≠ .geterr → t'.result = t.result)

/-- 41_position_encoder.md R128: HALLIRQ is EDGE with the vector of the pins, after SAMPLE has returned
it (log 4). -/
def Obligations.HallirqIsEdgeWithTheSampledVector : Prop :=
  ∀ (h1 h2 h3 : Bool) (s : State), ∃ v : HallVector,
    v.getLsbD 0 = h1 ∧ v.getLsbD 1 = h2 ∧ v.getLsbD 2 = h3 ∧
    hallIrq h1 h2 h3 s = exec (.edge v) { s with result := some (.vector v) } ∧
    hallIrq h1 h2 h3 s = serve (.hallChange h1 h2 h3) s

/-! ## The commutation engine -/

/-- 42_commutation_engine.md R153: COMMUTATE with a valid vector sends the five driver words of the table
entry and leaves the mask, the clamped magnitude on `hi`, 0 on `lo`, the lock clear, and every other
register as it was. The third channel keeps its shadow duty, and its applied duty where the two were
equal; where the test bench left them different, the words sent decide (log 17). -/
def Obligations.CommutateAppliesTheTableEntry : Prop :=
  ∀ (v : HallVector) (s : State), s.cfg.table.wf = true → v ≠ 0#3 → v ≠ 7#3 →
    let half := match s.com.dir with | .cw => s.cfg.table.cw | .ccw => s.cfg.table.ccw
    let e := match v.toNat with
      | 1 => half.v1 | 2 => half.v2 | 3 => half.v3 | 4 => half.v4 | 5 => half.v5 | _ => half.v6
    encode (.commutate v) = .q (0x3#4 ++ 0#4 ++ 0#29 ++ v) ∧
    ∃ t, exec (.commutate v) s = .next t ∧
      t.emitted = s.emitted ++
        [.lock, .cfg e.mask, .duty e.hi (0#1 ++ s.com.mag), .duty e.lo 0#32, .unlock] ∧
      t.drv.locked = false ∧ t.drv.cfgS = e.mask ∧ t.drv.cfgA = e.mask ∧
      (dutyGet t.drv.dutyS e.hi).toNat = min s.com.mag.toNat s.cfg.pwmMax ∧
      (dutyGet t.drv.dutyA e.hi).toNat = min s.com.mag.toNat s.cfg.pwmMax ∧
      dutyGet t.drv.dutyS e.lo = 0#32 ∧ dutyGet t.drv.dutyA e.lo = 0#32 ∧
      (∀ c, c ≠ e.hi → c ≠ e.lo →
        dutyGet t.drv.dutyS c = dutyGet s.drv.dutyS c ∧
        (dutyGet s.drv.dutyA c = dutyGet s.drv.dutyS c →
          dutyGet t.drv.dutyA c = dutyGet s.drv.dutyA c)) ∧
      t = { s with drv := t.drv, emitted := t.emitted }

/-- 42_commutation_engine.md R154: COMMUTATE with 000 or 111 completes, leaves the lock clear and the
duties within `PWM_MAX`, and changes no register but those of the driver. Nothing is said of their
values, which are free (log 6), nor of the driver words sent. -/
def Obligations.CommutateOfAnInvalidVectorCompletes : Prop :=
  ∀ (v : HallVector) (s : State), v = 0#3 ∨ v = 7#3 →
    ∃ t, exec (.commutate v) s = .next t ∧ t.drv.locked = false ∧
      (∀ c, (dutyGet t.drv.dutyS c).toNat ≤ s.cfg.pwmMax ∧
        (dutyGet t.drv.dutyA c).toNat ≤ s.cfg.pwmMax) ∧
      t = { s with drv := t.drv, emitted := t.emitted, draws := t.draws }

/-- 42_commutation_engine.md R155, 30_encoding.md R76: SETSPEED stores the absolute value and the sign of
the duty and commutates with the stored vector; every other register but those of the driver is
unchanged. -/
def Obligations.SetspeedStoresTheCommandAndCommutates : Prop :=
  ∀ (d : Word) (s : State), d ≠ 0x80000000#32 →
    encode (.setspeed d) = .q (0x4#4 ++ 0#4 ++ d) ∧
    ∃ (c : Commutation) (t : State),
      c.mag.toNat = d.toInt.natAbs ∧ (d.toInt < 0 → c.dir = .cw) ∧ (0 ≤ d.toInt → c.dir = .ccw) ∧
      exec (.setspeed d) s = exec (.commutate s.enc.prev) { s with com := c } ∧
      exec (.setspeed d) s = .next t ∧ t.com = c ∧ t.enc = s.enc ∧ t.mot = s.mot ∧ t.obs = s.obs ∧
      t.cfg = s.cfg ∧ t.started = s.started ∧ t.requests = s.requests ∧ t.result = s.result

/-- 42_commutation_engine.md R157, 10_state.md R41 (g): after COMMUTATE with a valid vector one channel
shows the motor the clamped magnitude, one shows 0 and one is disabled. -/
def Obligations.CommutateSplitsTheDuty : Prop :=
  ∀ (v : HallVector) (s : State), s.cfg.table.wf = true → v ≠ 0#3 → v ≠ 7#3 →
    ∃ (t : State) (hi lo off : Channel) (m : Word),
      exec (.commutate v) s = .next t ∧ hi ≠ lo ∧ hi ≠ off ∧ lo ≠ off ∧
      m.toNat = min s.com.mag.toNat s.cfg.pwmMax ∧
      motorView t.drv hi = some m ∧ motorView t.drv lo = some 0#32 ∧ motorView t.drv off = none

/-- 42_commutation_engine.md R153, 93_implementation_defined.md U14: what the motor sees after COMMUTATE
with a valid vector does not depend on what the driver registers held, so no stale or unspecified duty
is ever applied. -/
def Obligations.NoStaleDutyIsApplied : Prop :=
  ∀ (v : HallVector) (s : State) (d : Driver) (t u : State),
    s.cfg.table.wf = true → v ≠ 0#3 → v ≠ 7#3 →
    exec (.commutate v) s = .next t → exec (.commutate v) { s with drv := d } = .next u →
    ∀ c, motorView t.drv c = motorView u.drv c

/-- 42_commutation_engine.md R156: of the driver words COMMUTATE sends, each one but the last leaves the
applied registers as they were; the last brings them to their final values. -/
def Obligations.TheAppliedTupleMovesOnce : Prop :=
  ∀ (v : HallVector) (s : State), v ≠ 0#3 → v ≠ 7#3 →
    ∃ (t : State) (ws : List PortOp),
      exec (.commutate v) s = .next t ∧ t.emitted = s.emitted ++ ws ∧ ws.length = 5 ∧
      portRun s.cfg.pwmMax ws s.drv = t.drv ∧
      ∀ k, k < 5 →
        (portRun s.cfg.pwmMax (ws.take k) s.drv).cfgA = s.drv.cfgA ∧
        (portRun s.cfg.pwmMax (ws.take k) s.drv).dutyA = s.drv.dutyA

/-- 42_commutation_engine.md R158: with a valid vector stored, every SETSPEED and every TICK sends five
driver words, and so does every processed edge to a valid vector; a duplicate edge sends none. -/
def Obligations.FiveWordsPerCommutation : Prop :=
  ∀ (i : Instr) (s t : State), exec i s = .next t →
    (s.enc.prev ≠ 0#3 → s.enc.prev ≠ 7#3 → (i = .tick ∨ ∃ d, i = .setspeed d) →
      t.emitted.length = s.emitted.length + 5) ∧
    (∀ cur, i = .edge cur → cur ≠ s.enc.prev → cur ≠ 0#3 → cur ≠ 7#3 →
      t.emitted.length = s.emitted.length + 5) ∧
    (i = .edge s.enc.prev → t.emitted = s.emitted)

/-! ## The speed controller -/

/-- 43_speed_controller.md R172: TICK adds the acceleration divided by 100.0 to the speed, multiplies the
two gains and then the speed, rounds, and passes the result to SETSPEED; no encoder register, no
parameter and no observer register changes. The free values stand for the NaNs and for the rounding
outside its domain (log 7, log 8). -/
def Obligations.TickIntegratesAndCommands : Prop :=
  encode .tick = .q 0x5000000000#40 ∧
  ∀ s : State, ∃ (nan1 nan2 nan3 nan4 any : Word) (m : Motion) (t : State),
    f32IsNaN nan1 = true ∧ f32IsNaN nan2 = true ∧ f32IsNaN nan3 = true ∧ f32IsNaN nan4 = true ∧
    any ≠ 0x80000000#32 ∧
    m.accel = s.mot.accel ∧
    m.speed = f32Add nan2 s.mot.speed (f32Div nan1 s.mot.accel 0x42C80000#32) ∧
    m.vcmd = roundI32 any
      (f32Mul nan4 (f32Mul nan3 s.cfg.pwmVoltsRatio s.cfg.motorSpeedConstant) m.speed) ∧
    exec .tick s = exec (.setspeed m.vcmd) { s with mot := m, draws := s.draws + 5 } ∧
    exec .tick s = .next t ∧ t.mot = m ∧ t.enc = s.enc ∧ t.obs = s.obs ∧ t.cfg = s.cfg ∧
    t.started = s.started ∧ t.requests = s.requests ∧ t.result = s.result

/-- 43_speed_controller.md R172, R174: two ticks that differ in the free values alone, and whose product
lies in the domain of the rounding, leave the same state but for the driver registers, the driver words
and the counter of the free values (log 9); with a valid vector stored, but for that counter alone. -/
def Obligations.FreeValuesDoNotReachDefinedMotion : Prop :=
  ∀ (s t u : State) (n : Nat), exec .tick s = .next t → exec .tick { s with draws := n } = .next u →
    roundI32Domain
      (f32Mul (freeNaN (s.draws + 3))
        (f32Mul (freeNaN (s.draws + 2)) s.cfg.pwmVoltsRatio s.cfg.motorSpeedConstant)
        t.mot.speed) = true →
    { u with drv := t.drv, emitted := t.emitted, draws := t.draws } = t ∧
    (s.enc.prev ≠ 0#3 → s.enc.prev ≠ 7#3 → { u with draws := t.draws } = t)

/-- 43_speed_controller.md R173: in its domain `round_i32` gives the nearest integer, a tie going away
from zero, within [-(2^31 - 128), 2^31 - 128]; outside it the supplied value, and the value a tick
supplies is any in [-(2^31 - 1), 2^31 - 1] (log 7). Values are in units of 2^-149. -/
def Obligations.RoundI32IsNearestTiesAway : Prop :=
  ∀ any x : Word,
    (roundI32Domain x = true ↔ f32IsFinite x = true ∧ f32Mag x ≤ 2147483520 * 2 ^ 149) ∧
    (roundI32Domain x = true →
      |2 * ((roundI32 any x).toInt * 2 ^ 149 - f32Units x)| ≤ 2 ^ 149 ∧
      (|2 * ((roundI32 any x).toInt * 2 ^ 149 - f32Units x)| = 2 ^ 149 →
        |f32Units x| < |(roundI32 any x).toInt * 2 ^ 149|) ∧
      |(roundI32 any x).toInt| ≤ 2 ^ 31 - 128) ∧
    (roundI32Domain x = false → roundI32 any x = any) ∧
    ∀ n : Nat, -(2 ^ 31 - 1) ≤ (freeVcmd n).toInt ∧ (freeVcmd n).toInt ≤ 2 ^ 31 - 1

/-- 43_speed_controller.md R174: the sum of two finite values is the nearest binary32 to the exact sum,
ties to even; it overflows to the infinity of the sum's sign exactly when the exact sum reaches the
largest finite value plus half its quantum. Values are in units of 2^-149. -/
def Obligations.FloatSumIsNearestTiesToEven : Prop :=
  ∀ nan a b : Word, f32IsFinite a = true → f32IsFinite b = true →
    let r := f32Add nan a b
    let x := f32Units a + f32Units b
    (f32IsFinite r = true ↔ |x| < (2 ^ 25 - 1) * 2 ^ 252) ∧
    (f32IsFinite r = false → f32IsInf r = true) ∧
    (x ≠ 0 → f32Neg r = decide (x < 0)) ∧
    (f32IsFinite r = true → ∀ c : Word, f32IsFinite c = true →
      |f32Units r - x| ≤ |f32Units c - x| ∧
      (f32Units c ≠ f32Units r → |f32Units c - x| = |f32Units r - x| → r.toNat % 2 = 0))

/-- 43_speed_controller.md R174: the product of two finite values is the nearest binary32 to the exact
product, ties to even; it overflows to the infinity of the right sign. The exact product is in units of
2^-298. -/
def Obligations.FloatProductIsNearestTiesToEven : Prop :=
  ∀ nan a b : Word, f32IsFinite a = true → f32IsFinite b = true →
    let r := f32Mul nan a b
    let x := f32Units a * f32Units b
    (f32IsFinite r = true ↔ |x| < (2 ^ 25 - 1) * 2 ^ 252 * 2 ^ 149) ∧
    (f32IsFinite r = false → f32IsInf r = true) ∧
    f32Neg r = (f32Neg a ^^ f32Neg b) ∧
    (f32IsFinite r = true → ∀ c : Word, f32IsFinite c = true →
      |f32Units r * 2 ^ 149 - x| ≤ |f32Units c * 2 ^ 149 - x| ∧
      (f32Units c ≠ f32Units r → |f32Units c * 2 ^ 149 - x| = |f32Units r * 2 ^ 149 - x| →
        r.toNat % 2 = 0))

/-- 43_speed_controller.md R174: the quotient of two finite values, the divisor not zero, is the nearest
binary32 to the exact quotient, ties to even; it overflows to the infinity of the right sign. Distances
are scaled by the divisor. -/
def Obligations.FloatQuotientIsNearestTiesToEven : Prop :=
  ∀ nan a b : Word, f32IsFinite a = true → f32IsFinite b = true → f32Units b ≠ 0 →
    let r := f32Div nan a b
    let x := f32Units a * 2 ^ 149
    (f32IsFinite r = true ↔ |x| < (2 ^ 25 - 1) * 2 ^ 252 * |f32Units b|) ∧
    (f32IsFinite r = false → f32IsInf r = true) ∧
    f32Neg r = (f32Neg a ^^ f32Neg b) ∧
    (f32IsFinite r = true → ∀ c : Word, f32IsFinite c = true →
      |f32Units r * f32Units b - x| ≤ |f32Units c * f32Units b - x| ∧
      (f32Units c ≠ f32Units r →
        |f32Units c * f32Units b - x| = |f32Units r * f32Units b - x| → r.toNat % 2 = 0))

/-- 43_speed_controller.md R174 names the invalid operations, a NaN operand among them, all but the last
one here: that an infinity divided by an infinity is invalid is from the standard alone (log 10). That
each gives exactly the word supplied to it, and that the word an operation of the machine supplies is
some NaN, is the model's form of a NaN with unspecified sign and payload (log 8). -/
def Obligations.InvalidFloatOperationsGiveTheFreeNaN : Prop :=
  (∀ n : Nat, f32IsNaN (freeNaN n) = true) ∧
  ∀ nan a b : Word,
    (f32IsNaN a = true ∨ f32IsNaN b = true →
      f32Add nan a b = nan ∧ f32Mul nan a b = nan ∧ f32Div nan a b = nan) ∧
    (f32IsInf a = true → f32IsInf b = true → f32Neg a ≠ f32Neg b → f32Add nan a b = nan) ∧
    (f32IsInf a = true → f32IsZero b = true → f32Mul nan a b = nan ∧ f32Mul nan b a = nan) ∧
    (f32IsZero a = true → f32IsZero b = true → f32Div nan a b = nan) ∧
    (f32IsInf a = true → f32IsInf b = true → f32Div nan a b = nan)

/-- 43_speed_controller.md R175: with the setpoint 100.0 held from the speed 0.0, after any number of
ticks up to 2^24 the speed is exactly the number of ticks. -/
def Obligations.IntegrationOfAHundredIsExact : Prop :=
  ∀ (n : Nat) (s : State), n ≤ 2 ^ 24 → s.mot.accel = 0x42C80000#32 → s.mot.speed = 0#32 →
    ∃ t, execAll (pseudoTicks n) s = .next t ∧ t.mot.accel = 0x42C80000#32 ∧
      f32IsFinite t.mot.speed = true ∧ f32Units t.mot.speed = (n : Int) * 2 ^ 149

/-- 43_speed_controller.md R176: with setpoint and speed zero, of either sign, and a finite gain, any
number of ticks leaves the setpoint as it is and the speed zero, and the voltage command is zero after
the first, whatever vector is stored; a speed of +0.0 stays +0.0. With a valid vector stored the ticks
send no duty but 0 and leave duties that were 0 at 0. The sign of a zero sum is log 10. -/
def Obligations.ZeroCommandStaysZero : Prop :=
  ∀ (n : Nat) (s : State), f32IsZero s.mot.accel = true → f32IsZero s.mot.speed = true →
    (∀ nan, f32IsFinite (f32Mul nan s.cfg.pwmVoltsRatio s.cfg.motorSpeedConstant) = true) →
    ∃ (t : State) (ws : List PortOp), execAll (pseudoTicks n) s = .next t ∧
      t.mot.accel = s.mot.accel ∧ f32IsZero t.mot.speed = true ∧
      (s.mot.speed = 0#32 → t.mot.speed = 0#32) ∧
      (0 < n ∨ s.mot.vcmd = 0#32 → t.mot.vcmd = 0#32) ∧
      t.emitted = s.emitted ++ ws ∧
      (s.enc.prev ≠ 0#3 → s.enc.prev ≠ 7#3 → ∀ c v, PortOp.duty c v ∈ ws → v = 0#32) ∧
      (s.enc.prev ≠ 0#3 → s.enc.prev ≠ 7#3 →
        (∀ c, dutyGet s.drv.dutyS c = 0#32 ∧ dutyGet s.drv.dutyA c = 0#32) →
        ∀ c, dutyGet t.drv.dutyS c = 0#32 ∧ dutyGet t.drv.dutyA c = 0#32)

/-! ## Who writes what -/

/-- 10_state.md R21 to R33, R38, R40: RESET apart, the stored vector, the position and the measured
direction are written only by EDGE, the error flag by EDGE and RESETERR, the setpoint by SETACCEL and
RXFRAME with four bytes, the speed and the voltage command by TICK, the commutation registers by
SETSPEED and TICK, the driver registers by the driver words and the four operations that commutate, the
observer's registers by OBSERVE; the parameters by nothing. -/
def Obligations.EveryRegisterHasItsWriters : Prop :=
  ∀ (i : Instr) (s t : State), exec i s = .next t →
    t.cfg = s.cfg ∧
    (i ≠ .reset →
      (t.enc.prev ≠ s.enc.prev ∨ t.enc.pos ≠ s.enc.pos ∨ t.enc.dir ≠ s.enc.dir →
        ∃ v, i = .edge v) ∧
      (t.enc.err ≠ s.enc.err → i = .reseterr ∨ ∃ v, i = .edge v) ∧
      (t.mot.accel ≠ s.mot.accel → (∃ a, i = .setaccel a) ∨ (∃ p, i = .rxframe 4#4 p)) ∧
      (t.mot.speed ≠ s.mot.speed ∨ t.mot.vcmd ≠ s.mot.vcmd → i = .tick) ∧
      (t.com ≠ s.com → i = .tick ∨ ∃ d, i = .setspeed d) ∧
      (t.drv ≠ s.drv → isDriverWord i = true ∨ i = .tick ∨ (∃ d, i = .setspeed d) ∨
        (∃ v, i = .commutate v) ∨ ∃ v, i = .edge v) ∧
      (t.obs ≠ s.obs → i = .observe))

/-- 43_speed_controller.md R178, 44_environment_agents.md R196: no operation but OBSERVE reads the
observer's registers; the measured speed is not fed back. -/
def Obligations.TheObserverIsNotReadByTheCore : Prop :=
  ∀ (i : Instr) (s t : State) (o : Observer), i ≠ .observe → exec i s = .next t →
    ∃ t', exec i { s with obs := o } = .next t' ∧ { t' with obs := t.obs } = t

/-! ## The environment agents -/

/-- 44_environment_agents.md R191, R193: OBSERVE computes the speed from the wrapping difference, left to
right in binary32, stores it and the position, and returns the frame; no register of the core changes.
It holds whatever the three NaNs are: none is ever used. -/
def Obligations.ObserveMeasuresAndReturnsTheFrame : Prop :=
  encode .observe = .q 0xB000000000#40 ∧
  ∀ (nan1 nan2 nan3 : Word) (s : State),
    let delta := (s.enc.pos - s.obs.prev).toInt
    let speed :=
      f32Div nan3 (f32Mul nan2 (f32Mul nan1 (f32OfInt delta) 0x40C90FDB#32) 0x41A00000#32)
        0x42400000#32
    ∃ p : Payload,
      exec .observe s =
        .next { s with
          obs := { prev := s.enc.pos, speed := speed }
          draws := s.draws + 3
          result := some (.frame { ident := s.cfg.idSpeedTlm, len := 4, payload := p }) } ∧
      (s.cfg.wireBigEndian = false → p.p3 ++ p.p2 ++ p.p1 ++ p.p0 = speed) ∧
      (s.cfg.wireBigEndian = true → p.p0 ++ p.p1 ++ p.p2 ++ p.p3 = speed)

/-- 44_environment_agents.md R194: RXFRAME with four bytes stores the pattern they stand for in the wire's
byte order and changes nothing else; with any other length it changes nothing. -/
def Obligations.RxframeStoresFourBytesOrNothing : Prop :=
  ∀ (len : BitVec 4) (p : Payload) (s : State),
    encode (.rxframe len p) = .q (0xC#4 ++ len ++ (p.p3 ++ p.p2 ++ p.p1 ++ p.p0)) ∧
    (len ≠ 4#4 → exec (.rxframe len p) s = .next s) ∧
    (len = 4#4 → exec (.rxframe len p) s =
      exec (.setaccel (if s.cfg.wireBigEndian = true then p.p0 ++ p.p1 ++ p.p2 ++ p.p3
        else p.p3 ++ p.p2 ++ p.p1 ++ p.p0)) s) ∧
    (∃ t, exec (.rxframe len p) s = .next t ∧
      t = { s with mot := { s.mot with accel := t.mot.accel } })

/-- 30_encoding.md R90: the payload bytes of a pattern in either byte order, and a frame sent with a
setpoint and received with the same parameter stores that setpoint. -/
def Obligations.PayloadRoundTrips : Prop :=
  ∀ (b : Word) (s : State),
    (payloadOf false b).p3 ++ (payloadOf false b).p2 ++ (payloadOf false b).p1 ++
      (payloadOf false b).p0 = b ∧
    (payloadOf true b).p0 ++ (payloadOf true b).p1 ++ (payloadOf true b).p2 ++
      (payloadOf true b).p3 = b ∧
    exec (pseudoRxaccel s.cfg b) s = exec (.setaccel b) s

/-- 44_environment_agents.md R194, by its inference from R190, and 93_implementation_defined.md U13:
serving a frame with the identifier `ID_SET_ACCEL` is RXFRAME, and one with another identifier issues no
operation; so a frame with another identifier, or with a length other than 4, changes nothing. -/
def Obligations.OtherFramesLeaveNoTrace : Prop :=
  ∀ (ident : Nat) (len : BitVec 4) (p : Payload) (s : State),
    serve (.frameIn ident len p) s =
      (if ident = s.cfg.idSetAccel then exec (.rxframe len p) s else .next s) ∧
    (ident ≠ s.cfg.idSetAccel ∨ len ≠ 4#4 → serve (.frameIn ident len p) s = .next s)

/-! ## Reset -/

/-- 70_reset_and_hazards.md R241: RESET writes every register in one step and sends no driver word. That
it sets `started` (log 11) and keeps the fields that are no registers, the parameters (log 1) and the
model's own (log 12), is the model's choice. -/
def Obligations.ResetWritesEveryRegister : Prop :=
  encode .reset = .q 0#40 ∧
  ∀ s : State, exec .reset s = .next
    { cfg := s.cfg
      enc := { prev := s.cfg.hallReset, pos := 0#64, dir := .cw, err := false }
      mot := { accel := 0#32, speed := 0#32, vcmd := 0#32 }
      com := { mag := 0#31, dir := .ccw }
      drv := { locked := false, cfgS := 0#3, cfgA := 0#3, dutyS := ⟨0#32, 0#32, 0#32⟩,
               dutyA := ⟨0#32, 0#32, 0#32⟩ }
      obs := { prev := 0#64, speed := 0#32 }
      started := true
      draws := s.draws
      requests := s.requests
      emitted := s.emitted
      result := s.result }

/-- 10_state.md R42 and 70_reset_and_hazards.md R241 agree: RESET from any state gives the registers of
the state after reset under the same parameters, the model's own fields apart (log 12). -/
def Obligations.ResetAgreesWithTheResetState : Prop :=
  ∀ s : State, exec .reset s = .next
    { State.resetWith s.cfg with
      draws := s.draws, requests := s.requests, emitted := s.emitted, result := s.result }

/-- 70_reset_and_hazards.md R246 (a): with `HALL_RESET` = 000 the first processed edge after RESET latches
the error, leaves the direction CW and moves the position to -1, whatever the true direction. -/
def Obligations.FirstEdgeAfterZeroHallResetIsInvalid : Prop :=
  ∀ (s : State) (cur : HallVector), s.cfg.hallReset = 0#3 → cur ≠ 0#3 →
    ∃ t, execAll [.reset, .edge cur] s = .next t ∧
      t.enc = { prev := cur, pos := BitVec.ofInt 64 (-1), dir := .cw, err := true }

/-! ## Invariants -/

/-- 10_state.md R41 (d), R27, R40, 00_scope.md R9, 42_commutation_engine.md R151: every step keeps the
parameters within their constraints, the duties within `PWM_MAX` and the voltage command away from
-2^31. -/
def Obligations.EveryStepKeepsTheInvariant : Prop :=
  ∀ s t : State, BlockInv s → step s = .next t → BlockInv t

/-- 10_state.md R42: the state after reset meets the invariant, under any parameters that meet the spec's
constraints, and so under the board's. -/
def Obligations.TheResetStateMeetsTheInvariant : Prop :=
  (∀ c : Config, c.wf = true → BlockInv (State.resetWith c)) ∧ BlockInv State.reset

/-- 10_state.md R41 (f), R39 (a): an operation that is no driver word leaves an unlocked driver
unlocked. -/
def Obligations.RequestsLeaveTheDriverUnlocked : Prop :=
  ∀ (i : Instr) (s t : State), isDriverWord i = false → s.drv.locked = false →
    exec i s = .next t → t.drv.locked = false

/-- 10_state.md R41 (e): after a TICK the commutation registers hold the absolute value and the sign of
the voltage command, and every operation but a direct SETSPEED keeps that. -/
def Obligations.CommutationFollowsTheVoltageCommand : Prop :=
  (∀ s t : State, exec .tick s = .next t → ComFollowsVcmd t) ∧
  (∀ (i : Instr) (s t : State), (∀ d, i ≠ .setspeed d) → ComFollowsVcmd s → exec i s = .next t →
    ComFollowsVcmd t)

/-! ## Conversions and infinities -/

/-- 00_scope.md R17, 44_environment_agents.md R191: `f32(n)` of a 64-bit integer is finite, has its sign,
and is the nearest binary32 to it, ties to even; 0 gives +0.0. Values are in units of 2^-149. -/
def Obligations.IntegerConversionIsNearestTiesToEven : Prop :=
  ∀ z : Int, |z| ≤ 2 ^ 63 →
    let r := f32OfInt z
    let x := z * 2 ^ 149
    f32IsFinite r = true ∧ f32Neg r = decide (z < 0) ∧ (z = 0 → r = 0#32) ∧
    ∀ c : Word, f32IsFinite c = true →
      |f32Units r - x| ≤ |f32Units c - x| ∧
      (f32Units c ≠ f32Units r → |f32Units c - x| = |f32Units r - x| → r.toNat % 2 = 0)

/-- 43_speed_controller.md R174, R172 (e): an infinite operand of a valid operation. The sum of an
infinity with a finite value or with an infinity of its sign is that infinity; its product with a value
that is neither a zero nor a NaN is the infinity of the right sign. From the standard alone (log 10):
its quotient by a finite value is the infinity of the right sign, a finite value by an infinity is the
zero of the right sign, a finite value that is no zero by a zero is the infinity of the right sign, and
a sum that is exactly zero is +0.0 unless both operands are negative. A TICK with an infinite setpoint
and a finite speed, or with an infinite speed and a finite setpoint, leaves the speed at that infinity.
-/
def Obligations.InfiniteOperandsGiveTheirResults : Prop :=
  (∀ nan a b : Word,
    (f32IsInf a = true → f32IsFinite b = true ∨ (f32IsInf b = true ∧ f32Neg b = f32Neg a) →
      f32Add nan a b = a ∧ f32Add nan b a = a) ∧
    (f32IsInf a = true → f32IsNaN b = false → f32IsZero b = false →
      f32IsInf (f32Mul nan a b) = true ∧ f32Neg (f32Mul nan a b) = (f32Neg a ^^ f32Neg b) ∧
      f32Mul nan b a = f32Mul nan a b) ∧
    (f32IsInf a = true → f32IsFinite b = true →
      f32IsInf (f32Div nan a b) = true ∧ f32Neg (f32Div nan a b) = (f32Neg a ^^ f32Neg b)) ∧
    (f32IsFinite a = true → f32IsInf b = true →
      f32IsZero (f32Div nan a b) = true ∧ f32Neg (f32Div nan a b) = (f32Neg a ^^ f32Neg b)) ∧
    (f32IsFinite a = true → f32IsZero a = false → f32IsZero b = true →
      f32IsInf (f32Div nan a b) = true ∧ f32Neg (f32Div nan a b) = (f32Neg a ^^ f32Neg b)) ∧
    (f32IsFinite a = true → f32IsFinite b = true → f32Units a + f32Units b = 0 →
      f32Add nan a b = if f32Neg a = true ∧ f32Neg b = true then 0x80000000#32 else 0#32)) ∧
  ∀ s : State, ∃ t, exec .tick s = .next t ∧
    (f32IsInf s.mot.accel = true → f32IsFinite s.mot.speed = true →
      t.mot.speed = s.mot.accel) ∧
    (f32IsFinite s.mot.accel = true → f32IsInf s.mot.speed = true →
      t.mot.speed = s.mot.speed)
end

