-- ==== Sys2Proof/Laws/FloatRound.lean ====
section
/-! SUPPORT. The binary32 operations over values in units of 2^-149: packing, rounding to an integer, and
when a free NaN is used (43_speed_controller.md R173, R174). -/

namespace Sys2Proof.Machine

/-! ### Values -/

/-- A value by the sign and the pattern of its magnitude. -/
theorem f32Units_eq (x : Word) : f32Units x =
    if f32Neg x then -(patternMag (x.toNat % 2 ^ 31) : Int) else patternMag (x.toNat % 2 ^ 31) := by
  unfold f32Units; rw [f32Mag_eq]

theorem patternMag_zero : patternMag 0 = 0 := rfl

/-- Patterns of magnitudes are in the order of the values. -/
theorem patternMag_mono {p q : Nat} (h : p ≤ q) : patternMag p ≤ patternMag q := by
  obtain ⟨k1, q1, a1, b1, c1, d1⟩ := patternMag_parts p
  obtain ⟨k2, q2, a2, b2, c2, d2⟩ := patternMag_parts q
  rw [d1, d2]
  have hk : k1 ≤ k2 := by omega
  obtain ⟨e, rfl⟩ := Nat.exists_eq_add_of_le hk
  rw [pow_add, ← Nat.mul_assoc, Nat.mul_right_comm]
  apply Nat.mul_le_mul_right
  rcases Nat.eq_zero_or_pos e with rfl | he
  · simp; omega
  · have : q1 < q2 * 2 := by omega
    calc q1 ≤ q2 * 2 ^ 1 := by omega
      _ ≤ q2 * 2 ^ e := Nat.mul_le_mul_left _ (Nat.pow_le_pow_right (by decide) he)

theorem f32Mag_cast (b : Word) : ((f32Mag b : Nat) : Int) = |f32Units b| := by
  unfold f32Units; split <;> simp

theorem f32Units_mul (a b : Word) :
    (if (f32Neg a != f32Neg b) = true then -((f32Mag a * f32Mag b : Nat) : Int)
      else (f32Mag a * f32Mag b : Nat)) = f32Units a * f32Units b := by
  unfold f32Units; cases f32Neg a <;> cases f32Neg b <;> simp

theorem f32IsFinite_not {x : Word} (h : f32IsFinite x = true) :
    f32IsNaN x = false ∧ f32IsInf x = false := by
  rw [f32IsFinite_iff] at h
  constructor
  · rw [Bool.eq_false_iff, ne_eq, f32IsNaN_iff]; omega
  · rw [Bool.eq_false_iff, ne_eq, f32IsInf_iff]; omega

theorem overflow_cast : ((2:Int) ^ 25-1)*2 ^ 252 = (((2 ^ 25-1)*2 ^ 252 : Nat):Int) := by norm_num

/-! ### Rounding to an integer -/

/-- The domain of `round_i32` by value (R173). -/
theorem roundI32Domain_iff (x : Word) :
    roundI32Domain x = true ↔ f32IsFinite x = true ∧ f32Mag x ≤ 2147483520 * 2 ^ 149 := by
  rw [f32IsFinite_iff, f32Mag_eq]
  simp only [roundI32Domain, decide_eq_true_eq]
  have hm : patternMag 0x4EFFFFFF = 2147483520 * 2 ^ 149 := by decide
  constructor
  · intro h; refine ⟨by unfold f32InfMag; omega, ?_⟩
    rw [← hm]; exact patternMag_mono h
  · rintro ⟨h1, h2⟩
    by_contra hc
    have : patternMag 0x4F000000 ≤ patternMag (x.toNat % 2 ^ 31) := patternMag_mono (by omega)
    have h3 : patternMag 0x4F000000 = 2147483648 * 2 ^ 149 := by decide
    rw [h3] at this
    have : (2147483648:Nat) * 2 ^ 149 ≤ 2147483520 * 2 ^ 149 := le_trans this h2
    norm_num at this

/-- `round_i32` in its domain as an integer (R173). -/
theorem roundI32_toInt (any x : Word) (h : roundI32Domain x = true) :
    (roundI32 any x).toInt =
      if f32Neg x then -(roundHalfUp (f32Mag x) : Int) else roundHalfUp (f32Mag x) := by
  have hm := ((roundI32Domain_iff x).mp h).2
  have hb : roundHalfUp (f32Mag x) ≤ 2147483520 := by
    unfold roundHalfUp
    have : (2 * f32Mag x + 2 ^ 149) / 2 ^ 150 < 2147483521 := by
      rw [Nat.div_lt_iff_lt_mul (by positivity)]
      have : (2147483521:Nat) * 2 ^ 150 = 2 * (2147483520 * 2 ^ 149) + 2 * 2 ^ 149 := by norm_num
      rw [this]
      have : 0 < 2 ^ 149 := by positivity
      omega
    omega
  unfold roundI32; rw [if_pos h]
  dsimp only
  generalize roundHalfUp (f32Mag x) = m at *
  have e : (BitVec.ofNat 32 m).toInt = m := by
    rw [BitVec.toInt_ofNat', Int.bmod_def]; split <;> omega
  split
  · rw [BitVec.toInt_neg, e, Int.bmod_def]; split <;> omega
  · exact e

/-! ### Packing a rounded magnitude -/

theorem f32Pack_round_facts (neg : Bool) (num den : Nat) (hd : 0 < den) :
    let r := f32Pack neg (f32RoundMag num den)
    f32Neg r = neg ∧ (f32IsFinite r = true ↔ num < (2 ^ 25 - 1) * 2 ^ 252 * den) ∧
    (f32IsFinite r = false → f32IsInf r = true) ∧
    (f32IsFinite r = true → r.toNat % 2 ^ 31 = f32RoundRaw num den) := by
  intro r
  have hlt := f32RoundMag_lt num den
  have hlow : r.toNat % 2 ^ 31 = f32RoundMag num den := f32Pack_low hlt
  refine ⟨f32Neg_pack hlt, ?_, ?_, ?_⟩
  · rw [f32IsFinite_iff, hlow, f32RoundMag_eq, ← f32RoundRaw_lt_inf_iff num den hd]; omega
  · intro h
    rw [Bool.eq_false_iff, ne_eq, f32IsFinite_iff, hlow] at h
    rw [f32IsInf_iff, hlow]
    rw [f32RoundMag_eq] at *
    omega
  · intro h
    rw [f32IsFinite_iff, hlow] at h
    rw [hlow]
    rw [f32RoundMag_eq] at *
    omega

/-- A packed rounded magnitude is a nearest value to the signed quotient, ties to even. -/
theorem f32Pack_round_nearest (neg : Bool) (num den : Nat) (hd : 0 < den) (c : Word)
    (hf : f32IsFinite (f32Pack neg (f32RoundMag num den)) = true) :
    let r := f32Pack neg (f32RoundMag num den)
    let x : Int := if neg then -(num : Int) else num
    |f32Units r * den - x| ≤ |f32Units c * den - x| ∧
    (f32Units c ≠ f32Units r → |f32Units c * den - x| = |f32Units r * den - x| → r.toNat % 2 = 0) := by
  intro r x
  obtain ⟨h1, _, _, h4⟩ := f32Pack_round_facts neg num den hd
  have hr : r.toNat % 2 ^ 31 = f32RoundRaw num den := h4 hf
  have hrn : f32Neg r = neg := h1
  have near := f32RoundRaw_nearest num den hd
  have tie := f32RoundRaw_tie num den hd
  have hpar : f32RoundRaw num den % 2 = 0 → r.toNat % 2 = 0 := by omega
  rw [f32Units_eq r, f32Units_eq c, hr, hrn]
  have n1 := near (c.toNat % 2 ^ 31)
  have n0 := near 0
  rw [patternMag_zero] at n0
  have t1 := tie (c.toNat % 2 ^ 31)
  generalize patternMag (f32RoundRaw num den) = V at *
  generalize patternMag (c.toNat % 2 ^ 31) = W at *
  generalize hVd : (V:Int) * den = Vd at *
  generalize hWd : (W:Int) * den = Wd at *
  have hWd0 : 0 ≤ Wd := by rw [← hWd]; positivity
  have hVd0 : 0 ≤ Vd := by rw [← hVd]; positivity
  have hW0 : W = 0 ↔ Wd = 0 := by
    rw [← hWd]; constructor
    · rintro rfl; simp
    · intro h; rcases mul_eq_zero.mp h with h | h <;> omega
  have hN : (-(V:Int)) * den = -Vd := by rw [← hVd]; ring
  have hM : (-(W:Int)) * den = -Wd := by rw [← hWd]; ring
  have n0 : |Vd - num| ≤ num := by
    simp only [Nat.cast_zero, zero_mul, zero_sub, abs_neg, Nat.abs_cast] at n0; exact n0
  have opp : Wd + num = |Vd - num| → W = 0 ∧ |Wd - num| = |Vd - num| := by
    intro h
    have hz : Wd = 0 := by omega
    refine ⟨hW0.mpr hz, ?_⟩
    rw [← h, hz]; simp
  have e1 : |-Vd - -(num:Int)| = |Vd - num| := by rw [← abs_neg]; congr 1; ring
  have e2 : |-Wd - -(num:Int)| = |Wd - num| := by rw [← abs_neg]; congr 1; ring
  have e3 : |Wd - -(num:Int)| = Wd + num := by rw [abs_of_nonneg (by omega)]; ring
  have e4 : |-Wd - (num:Int)| = Wd + num := by rw [abs_of_nonpos (by omega)]; ring
  cases neg <;> cases f32Neg c <;> simp only [Bool.false_eq_true, if_true, if_false, hN, hM, hVd, hWd, x, e1, e2, e3, e4]
  · exact ⟨n1, fun h1 h2 => hpar (t1 (by omega) h2)⟩
  · exact ⟨by omega, fun h1 h2 => hpar (t1 (by have := (opp h2).1; omega) (opp h2).2)⟩
  · exact ⟨by omega, fun h1 h2 => hpar (t1 (by have := (opp h2).1; omega) (opp h2).2)⟩
  · exact ⟨n1, fun h1 h2 => hpar (t1 (by omega) h2)⟩

/-- A rounded quotient of at most `A` is finite and at most twice `A`. -/
theorem f32Pack_round_le (neg : Bool) (num den A : Nat) (hd : 0 < den) (h : num ≤ A * den)
    (hA : A < (2 ^ 25 - 1) * 2 ^ 252) :
    f32IsFinite (f32Pack neg (f32RoundMag num den)) = true ∧
    f32Mag (f32Pack neg (f32RoundMag num den)) ≤ 2 * A := by
  obtain ⟨h1, h2, h3, h4⟩ := f32Pack_round_facts neg num den hd
  have hf := h2.mpr (lt_of_le_of_lt h (Nat.mul_lt_mul_of_pos_right hA hd))
  refine ⟨hf, ?_⟩
  rw [f32Mag_eq, h4 hf]
  have near := f32RoundRaw_nearest num den hd 0
  rw [patternMag_zero] at near
  generalize patternMag (f32RoundRaw num den) = V at *
  clear h1 h2 h3 h4 hf hA
  simp only [Nat.cast_zero, zero_mul, zero_sub, abs_neg, Nat.abs_cast] at near
  have hV := (abs_le.mp near).2
  have hV' : ((V * den : Nat) : Int) ≤ 2 * num := by
    push_cast
    linarith
  have : V * den ≤ 2 * A * den := by
    rw [Nat.mul_assoc]
    omega
  exact Nat.le_of_mul_le_mul_right this hd

/-- A product of at most `A` units is finite, at most twice `A`, and uses no NaN. -/
theorem f32Mul_of_le {a b : Word} (ha : f32IsFinite a = true) (hb : f32IsFinite b = true) (A : Nat)
    (h : f32Mag a * f32Mag b ≤ A * 2 ^ 149) (hA : A < (2 ^ 25 - 1) * 2 ^ 252) (nan : Word) :
    (∀ n, f32Mul n a b = f32Mul nan a b) ∧ f32IsFinite (f32Mul nan a b) = true ∧
    f32Mag (f32Mul nan a b) ≤ 2 * A := by
  have hr : ∀ n, f32Mul n a b =
      f32Pack (f32Neg a != f32Neg b) (f32RoundMag (f32Mag a * f32Mag b) (2 ^ 149)) := by
    intro n
    simp [f32Mul, f32IsFinite_not ha, f32IsFinite_not hb]
  refine ⟨fun n => (hr n).trans (hr nan).symm, ?_⟩
  rw [hr]
  exact f32Pack_round_le _ _ _ A (by positivity) h hA

/-- A 64-bit integer converts to a finite binary32 of at most 2 ^ 64. -/
theorem f32OfInt_le (z : Int) (h : z.natAbs ≤ 2 ^ 63) :
    f32IsFinite (f32OfInt z) = true ∧ f32Mag (f32OfInt z) ≤ 2 ^ 64 * 2 ^ 149 := by
  have := f32Pack_round_le (decide (z < 0)) (z.natAbs * 2 ^ 149) 1 (2 ^ 63 * 2 ^ 149) (by decide)
    (by rw [Nat.mul_one]; exact Nat.mul_le_mul_right _ h) (by norm_num)
  exact ⟨this.1, le_trans this.2 (by norm_num)⟩

/-! ### When the free NaN is used -/

theorem f32Add_nan_or_indep (a b : Word) :
    (∀ n, f32Add n a b = n) ∨ (∀ n m, f32Add n a b = f32Add m a b) := by
  unfold f32Add; split
  · left; simp
  · split
    · split
      · left; simp
      · right; simp
    · right; split <;> simp

theorem f32Mul_nan_or_indep (a b : Word) :
    (∀ n, f32Mul n a b = n) ∨ (∀ n m, f32Mul n a b = f32Mul m a b) := by
  unfold f32Mul; dsimp only; split
  · left; simp
  · split
    · split
      · left; simp
      · right; simp
    · right; simp

theorem f32Div_nan_or_indep (a b : Word) :
    (∀ n, f32Div n a b = n) ∨ (∀ n m, f32Div n a b = f32Div m a b) := by
  unfold f32Div; dsimp only; split
  · left; simp
  · split
    · split
      · left; simp
      · right; simp
    · split
      · right; simp
      · split
        · split
          · left; simp
          · right; simp
        · right; simp

theorem f32IsNaN_of_domain {x : Word} (h : roundI32Domain x = true) : f32IsNaN x = false :=
  (f32IsFinite_not ((roundI32Domain_iff x).mp h).1).1

/-! ### Small integers -/

theorem f32OfInt_natCast (n : Nat) : f32OfInt (n : Int) = f32Pack false (f32RoundMag (n * 2 ^ 149) 1) := by
  have h : decide ((n : Int) < 0) = false := by simp
  simp only [f32OfInt, Int.natAbs_natCast, h]

/-- A natural below 2 ^ 24 has a binary32 of exactly its value. -/
theorem exists_patternMag (n : Nat) (hn : n < 2 ^ 24) : ∃ p, patternMag p = n * 2 ^ 149 := by
  rcases Nat.eq_zero_or_pos n with rfl | hpos
  · exact ⟨0, by simp [patternMag_zero]⟩
  · have hl : n.log2 < 24 := by
      rw [Nat.log2_lt (by omega)]
      exact hn
    have hlo := Nat.log2_self_le (show n ≠ 0 by omega)
    have hhi := Nat.lt_log2_self (n := n)
    refine ⟨(149 + n.log2 - 23) * 2 ^ 23 + n * 2 ^ (23 - n.log2), ?_⟩
    rw [patternMag_of_parts]
    · rw [Nat.mul_assoc, ← pow_add]
      congr 2
      omega
    · calc n * 2 ^ (23 - n.log2) ≤ 2 ^ (n.log2 + 1) * 2 ^ (23 - n.log2) :=
            Nat.mul_le_mul_right _ (le_of_lt hhi)
        _ = 2 ^ 24 := by
            rw [← pow_add]
            congr 1
            omega
    · right
      calc 2 ^ 23 = 2 ^ n.log2 * 2 ^ (23 - n.log2) := by
            rw [← pow_add]
            congr 1
            omega
        _ ≤ _ := Nat.mul_le_mul_right _ hlo

/-- The conversion of a natural below 2 ^ 24 is exact. -/
theorem f32Units_ofInt (n : Nat) (hn : n < 2 ^ 24) :
    f32IsFinite (f32OfInt n) = true ∧ f32Units (f32OfInt n) = n * 2 ^ 149 := by
  obtain ⟨h1, h2, h3, h4⟩ := f32Pack_round_facts false (n * 2 ^ 149) 1 (by norm_num)
  rw [← f32OfInt_natCast] at h1 h2 h3 h4
  have hf : f32IsFinite (f32OfInt n) = true := by
    rw [h2]
    calc n * 2 ^ 149 < 2 ^ 24 * 2 ^ 149 := Nat.mul_lt_mul_of_pos_right hn (by positivity)
      _ ≤ _ := by norm_num
  refine ⟨hf, ?_⟩
  rw [f32Units_eq, h1, h4 hf]
  obtain ⟨p, hp⟩ := exists_patternMag n hn
  have near := f32RoundRaw_nearest (n * 2 ^ 149) 1 (by norm_num) p
  rw [hp] at near
  simp only [Nat.cast_one, mul_one, sub_self, abs_zero] at near
  have h0 := abs_eq_zero.mp (le_antisymm near (abs_nonneg _))
  have : (patternMag (f32RoundRaw (n * 2 ^ 149) 1) : Int) = ((n * 2 ^ 149 : Nat) : Int) := by
    linarith
  simp only [Bool.false_eq_true, if_false]
  rw [this]
  push_cast
  rfl

/-- Counting up by 1.0 stays exact up to 2 ^ 24 (43_speed_controller.md R175). -/
theorem f32Add_one (nan : Word) (n : Nat) (hn : n < 2 ^ 24) :
    f32Add nan (f32OfInt n) 0x3F800000#32 = f32OfInt ((n + 1 : Nat) : Int) := by
  obtain ⟨hf, hu⟩ := f32Units_ofInt n hn
  have h1 : f32IsFinite 0x3F800000#32 = true := by decide
  have u1 : f32Units 0x3F800000#32 = 2 ^ 149 := by decide
  have hs : f32Units (f32OfInt n) + f32Units 0x3F800000#32 = ((n + 1) * 2 ^ 149 : Nat) := by
    rw [hu, u1]
    push_cast
    ring
  have hne : (((n + 1) * 2 ^ 149 : Nat) : Int) ≠ 0 := by positivity
  have hnn : decide ((((n + 1) * 2 ^ 149 : Nat) : Int) < 0) = false := by
    rw [decide_eq_false_iff_not, not_lt]
    positivity
  rw [f32OfInt_natCast (n + 1)]
  simp only [f32Add, f32IsFinite_not hf, f32IsFinite_not h1, Bool.or_self, Bool.false_eq_true, if_false]
  rw [hs, if_neg hne, Int.natAbs_natCast, hnn]

end Sys2Proof.Machine
end

