-- ==== Sys2Proof/Tests/Slice0.lean ====
section
/-! SUPPORT. Tests. Expected values are the spec's: 95_test_vectors.md (its family is named) and the
encodings of 30_encoding.md. -/

namespace Sys2Proof.Tests

open Sys2Proof.Machine

/-! ## Helpers -/

/-- A field of the next state of an operation, or nothing when it stops. -/
def after {α : Type} (i : Instr) (s : State) (f : State → α) : Option α :=
  match exec i s with
  | .next t => some (f t)
  | _ => none

/-- A field of the next state of a step, or nothing when it stops. -/
def afterStep {α : Type} (s : State) (f : State → α) : Option α :=
  match step s with
  | .next t => some (f t)
  | _ => none

/-- The refusal of a step, if it is one. -/
def refusalOfStep (s : State) : Option Refusal :=
  match step s with
  | .refused r => some r
  | _ => none

/-- Reset under the configuration of the spec's examples, `CFG_EX`. -/
def s0 : State := State.resetWith Config.cfgEx

/-- `s0` with the encoder registers of a test row. -/
def encAt (prev : HallVector) (pos : Position) (dir : Dir) (err : Bool) : State :=
  s0.setEnc ⟨prev, pos, dir, err⟩

/-- `s0` with the motion registers of a test row. -/
def motAt (accel speed : Word) : State := s0.setMot ⟨accel, speed, 0#32⟩

/-- `s0` with a command and a stored vector. -/
def comAt (prev : HallVector) (mag : BitVec 31) (dir : Dir) : State :=
  (encAt prev 0#64 .cw false).setCom ⟨mag, dir⟩

/-- The applied driver tuple (40_phase_driver_port.md R105). -/
def applied (s : State) : OutputMask × Word × Word × Word :=
  (s.drv.cfgA, s.drv.dutyA.ch0, s.drv.dutyA.ch1, s.drv.dutyA.ch2)

/-! ## WellFormed refuses an ill-formed term of each check -/

theorem test_wf_refuses_reserved_duty : (Instr.setspeed 0x80000000#32).wf = false := by decide

theorem test_wf_refuses_byte_beyond_length :
    (Instr.rxframe 3#4 ⟨0#8, 0#8, 0#8, 1#8⟩).wf = false ∧
    (Instr.rxframe 2#4 ⟨0#8, 0#8, 1#8, 0#8⟩).wf = false ∧
    (Instr.rxframe 1#4 ⟨0#8, 1#8, 0#8, 0#8⟩).wf = false ∧
    (Instr.rxframe 0#4 ⟨1#8, 0#8, 0#8, 0#8⟩).wf = false := by decide

/-! ## Decoding: words written out from R79, R80 and R85 -/

theorem test_decode_plain :
    decode (.q 0x0000000000#40) = .instr .reset ∧
    decode (.q 0x5000000000#40) = .instr .tick ∧
    decode (.q 0x7000000000#40) = .instr .getpos ∧
    decode (.q 0x8000000000#40) = .instr .getdir ∧
    decode (.q 0x9000000000#40) = .instr .geterr ∧
    decode (.q 0xA000000000#40) = .instr .reseterr ∧
    decode (.q 0xB000000000#40) = .instr .observe := by decide

theorem test_decode_vectors :
    decode (.q 0x1000000005#40) = .instr (.sample true false true) ∧
    decode (.q 0x1000000002#40) = .instr (.sample false true false) ∧
    decode (.q 0x2000000006#40) = .instr (.edge 0b110#3) ∧
    decode (.q 0x3000000003#40) = .instr (.commutate 0b011#3) := by decide

theorem test_decode_words :
    decode (.q 0x40FFFFFED4#40) = .instr (.setspeed (BitVec.ofInt 32 (-300))) ∧
    decode (.q 0x6042C80000#40) = .instr (.setaccel 0x42C80000#32) := by decide

theorem test_decode_rxframe :
    decode (.q 0xC300C80000#40) = .instr (.rxframe 3#4 ⟨0x00#8, 0x00#8, 0xC8#8, 0x00#8⟩) ∧
    decode (.q 0xC442FB53D1#40) = .instr (.rxframe 4#4 ⟨0xD1#8, 0x53#8, 0xFB#8, 0x42#8⟩) := by decide

/-- V-DRV. -/
theorem test_decode_driver :
    decode (.p 0x000000000#36) = .instr .lock ∧
    decode (.p 0x400000000#36) = .instr .unlock ∧
    decode (.p 0x800000005#36) = .instr (.cfg 0b101#3) ∧
    decode (.p 0xE0000012C#36) = .instr (.duty .ch2 300#32) ∧
    decode (.p 0xC000000FF#36) = .instr (.duty .ch0 255#32) ∧
    decode (.p 0xD00000100#36) = .instr (.duty .ch1 256#32) := by decide

/-- V-RST, V-SET, V-DRV: the refused words. -/
theorem test_decode_refuses :
    decode (.q 0x0000000001#40) = .refuse .reservedWord ∧
    decode (.q 0xD000000000#40) = .refuse .reservedWord ∧
    decode (.q 0xE000000000#40) = .refuse .reservedWord ∧
    decode (.q 0xF000000000#40) = .refuse .reservedWord ∧
    decode (.q 0x5000000001#40) = .refuse .reservedWord ∧
    decode (.q 0x2000000008#40) = .refuse .reservedWord ∧
    decode (.q 0x7100000000#40) = .refuse .reservedWord ∧
    decode (.q 0x4080000000#40) = .refuse .badDuty ∧
    decode (.p 0xF00000001#36) = .refuse .badChannel := by decide

theorem test_table_words :
    decodeTableWord 40 0x2000000005 = some (.edge 5#3) ∧
    decodeTableWord 36 0x000000000 = some .lock ∧
    decodeTableWord 40 0x400000000 = some .unlock ∧
    decodeTableWord 40 0xE0000012C = some (.duty .ch2 300#32) := by decide

/-! ## The port (V-DRV) -/

theorem test_duty_clamps :
    after (.duty .ch2 300#32) s0 (fun t => (t.drv.dutyS, t.drv.dutyA)) =
      some (⟨0#32, 0#32, 255#32⟩, ⟨0#32, 0#32, 255#32⟩) := by decide

theorem test_duty_locked_writes_shadow_only :
    after (.duty .ch0 100#32) (s0.setDrv { s0.drv with locked := true })
      (fun t => (t.drv.dutyS, t.drv.dutyA)) =
      some (⟨100#32, 0#32, 0#32⟩, ⟨0#32, 0#32, 0#32⟩) := by decide

theorem test_cfg_locked_writes_shadow_only :
    after (.cfg 0b011#3) (s0.setDrv ⟨true, 0b101#3, 0b101#3, s0.drv.dutyS, s0.drv.dutyA⟩)
      (fun t => (t.drv.cfgS, t.drv.cfgA)) = some (0b011#3, 0b101#3) := by decide

theorem test_lock : after .lock s0 (fun t => t.drv) = some { s0.drv with locked := true } := by decide

theorem test_unlock_applies_shadow :
    after .unlock
      (s0.setDrv ⟨true, 0b011#3, 0b101#3, ⟨100#32, 0#32, 255#32⟩, ⟨255#32, 255#32, 255#32⟩⟩)
      (fun t => t.drv) =
      some ⟨false, 0b011#3, 0b011#3, ⟨100#32, 0#32, 255#32⟩, ⟨100#32, 0#32, 255#32⟩⟩ := by decide

/-! ## The position encoder (V-EDGE, V-ACC, V-SNAP) -/

/-- V-EDGE rows 1 and 13. -/
theorem test_edge_cw :
    after (.edge 5#3) (encAt 1#3 0#64 .cw false) (fun t => (t.enc, applied t)) =
      some (⟨5#3, -1#64, .cw, false⟩, 0b101#3, 0#32, 0#32, 0#32) ∧
    after (.edge 4#3) (encAt 5#3 3#64 .ccw true) (fun t => (t.enc, applied t)) =
      some (⟨4#3, 2#64, .cw, true⟩, 0b110#3, 0#32, 0#32, 0#32) := by decide

/-- V-EDGE rows 4, 6 and 9. -/
theorem test_edge_duplicate_and_invalid :
    after (.edge 4#3) (encAt 4#3 7#64 .ccw false) (fun t => (t.enc, t.emitted)) =
      some (⟨4#3, 7#64, .ccw, false⟩, []) ∧
    after (.edge 7#3) (encAt 1#3 0#64 .ccw false) (fun t => t.enc) =
      some ⟨7#3, 1#64, .ccw, true⟩ ∧
    after (.edge 0#3) (encAt 0#3 5#64 .cw false) (fun t => t.enc) =
      some ⟨0#3, 5#64, .cw, false⟩ := by decide

theorem test_position_wraps :
    nextPos 0x7FFFFFFFFFFFFFFF#64 .ccw = 0x8000000000000000#64 ∧
    nextPos 0x8000000000000000#64 .cw = 0x7FFFFFFFFFFFFFFF#64 ∧
    nextPos 0x00000000FFFFFFFF#64 .ccw = 0x0000000100000000#64 := by decide

theorem test_sample : after (.sample true false true) s0 (fun t => t.result) =
    some (some (.vector 5#3)) := by decide

theorem test_accessors :
    after .getpos (encAt 1#3 (-6#64) .cw false) (fun t => t.result) =
      some (some (.position 0xFFFFFFFFFFFFFFFA#64)) ∧
    after .getdir (encAt 3#3 1#64 .ccw false) (fun t => t.result) =
      some (some (.direction 1#1)) ∧
    after .getdir (encAt 1#3 1#64 .cw false) (fun t => t.result) =
      some (some (.direction 0#1)) ∧
    after .geterr (encAt 4#3 (-1#64) .cw true) (fun t => (t.result, t.enc.err)) =
      some (some (.error 1#1), true) := by decide

theorem test_reseterr :
    after .reseterr (encAt 4#3 (-1#64) .cw true) (fun t => t.enc) =
      some ⟨4#3, -1#64, .cw, false⟩ := by decide

/-! ## The commutation engine (V-COM, V-SET) -/

/-- V-COM, row (CW, 1). -/
theorem test_commutate_words :
    after (.commutate 1#3) (comAt 1#3 100#31 .cw) (fun t => (t.emitted.map PortOp.word, applied t)) =
      some ([.p 0x000000000#36, .p 0x800000003#36, .p 0xC00000064#36, .p 0xD00000000#36,
        .p 0x400000000#36], 0b011#3, 100#32, 0#32, 0#32) := by decide

/-- V-COM, row (any, 7). -/
theorem test_commutate_invalid_unlocks :
    after (.commutate 7#3) (comAt 1#3 100#31 .cw) (fun t => (t.drv.locked, t.enc, t.com)) =
      some (false, ⟨1#3, 0#64, .cw, false⟩, ⟨100#31, .cw⟩) := by decide

/-- V-SET, rows -300 and 2147483647. -/
theorem test_setspeed :
    after (.setspeed (BitVec.ofInt 32 (-300))) (comAt 4#3 0#31 .ccw) (fun t => (t.com, applied t)) =
      some (⟨300#31, .cw⟩, 0b110#3, 0#32, 255#32, 0#32) ∧
    after (.setspeed 2147483647#32) (comAt 4#3 0#31 .ccw) (fun t => (t.com, applied t)) =
      some (⟨2147483647#31, .ccw⟩, 0b110#3, 0#32, 0#32, 255#32) := by decide

theorem test_setspeed_reserved :
    after (.setspeed 0x80000000#32) (comAt 4#3 0#31 .ccw) (fun t => t.com) = none := by decide

/-! ## The speed controller (V-RND, V-TICK) -/

/-- V-RND. -/
theorem test_round :
    (roundI32 0#32 0x3EFFFFFF#32, roundI32 0#32 0x3F000000#32, roundI32 0#32 0xBF000000#32,
      roundI32 0#32 0x40200000#32, roundI32 0#32 0xC0200000#32, roundI32 0#32 0x4AFFFFFE#32,
      roundI32 0#32 0x4EFFFFFF#32, roundI32 0#32 0xCEFFFFFF#32) =
    (0#32, 1#32, -1#32, 3#32, -3#32, 8388607#32, 2147483520#32, -2147483520#32) := by decide

theorem test_round_outside_is_free :
    [0x4F000000#32, 0x7F800000#32, 0xFF800000#32, 0x7FC00000#32].map (roundI32 77#32) =
      [77#32, 77#32, 77#32, 77#32] := by decide

/-- V-TICK-C: the first increment, and ticks 3, 10, 50 and 51 from the speeds of the rows before. -/
theorem test_float_division_and_sum :
    f32Div 0#32 0x3F800000#32 (f32OfInt 100) = 0x3C23D70A#32 ∧
    f32Add 0#32 0x3CA3D70A#32 0x3C23D70A#32 = 0x3CF5C28F#32 ∧
    f32Add 0#32 0x3EFAE141#32 0x3C23D70A#32 = 0x3EFFFFF9#32 ∧
    f32Add 0#32 0x3EFFFFF9#32 0x3C23D70A#32 = 0x3F028F59#32 := by decide

/-- V-TICK-G, V-TICK-ST, and 4.0 + (-4.0) of program P2. -/
theorem test_float_product_stall_and_zero :
    f32Mul 0#32 0x40400000#32 0x3DCCCCCD#32 = 0x3E99999A#32 ∧
    f32Add 0#32 0x4B800000#32 0x3F800000#32 = 0x4B800000#32 ∧
    f32Add 0#32 0x40800000#32 0xC0800000#32 = 0x00000000#32 := by decide

/-- R174: overflow gives an infinity; gradual underflow; the least subnormal halved ties to zero. -/
theorem test_float_ends :
    f32Add 0#32 0x7F7FFFFF#32 0x7F7FFFFF#32 = 0x7F800000#32 ∧
    f32Mul 0#32 0x00800000#32 0x3F000000#32 = 0x00400000#32 ∧
    f32Mul 0#32 0x00000001#32 0x3F000000#32 = 0x00000000#32 ∧
    f32Add 9#32 0x7F800000#32 0xFF800000#32 = 9#32 := by decide

/-- V-TICK-A, tick 1; V-TICK-B with -50.0, tick 1. -/
theorem test_tick_registers :
    after .tick (motAt 0x42C80000#32 0#32) (fun t => (t.mot, t.com)) =
      some (⟨0x42C80000#32, 0x3F800000#32, 1#32⟩, ⟨1#31, .ccw⟩) ∧
    after .tick (motAt 0xC2480000#32 0#32) (fun t => (t.mot, t.com)) =
      some (⟨0xC2480000#32, 0xBF000000#32, -1#32⟩, ⟨1#31, .cw⟩) := by decide

theorem test_tick_outputs :
    after .tick (motAt 0x42C80000#32 0#32) applied = some (0b011#3, 0#32, 1#32, 0#32) ∧
    after .tick (motAt 0xC2480000#32 0#32) applied = some (0b011#3, 1#32, 0#32, 0#32) := by decide

/-- V-TICK-S, tick 2. -/
theorem test_tick_saturates :
    after .tick (motAt 0x469C4000#32 0x43480000#32) (fun t => (t.mot.vcmd, t.com.mag, applied t)) =
      some (400#32, 400#31, 0b011#3, 0#32, 255#32, 0#32) := by decide

theorem test_setaccel :
    after (.setaccel 0x7FC00000#32) s0 (fun t => t.mot) = some ⟨0x7FC00000#32, 0#32, 0#32⟩ := by
  decide

/-! ## The agents (V-OBS, V-RX) -/

/-- V-OBS, rows -48 and 240. -/
theorem test_observe :
    after .observe (encAt 1#3 (-48#64) .cw false) (fun t => (t.obs.speed, t.result)) =
      some (0xC2FB53D1#32, some (.frame ⟨2, 4, ⟨0xD1#8, 0x53#8, 0xFB#8, 0xC2#8⟩⟩)) ∧
    after .observe (encAt 1#3 240#64 .cw false) (fun t => t.obs.speed) =
      some 0x441D1463#32 := by decide

/-- V-OBS, across a wrap: a difference of two ticks (P4: 0x40A78D37). -/
theorem test_observe_across_wrap :
    after .observe ((encAt 1#3 0x8000000000000001#64 .cw false).setObs ⟨0x7FFFFFFFFFFFFFFF#64, 0#32⟩)
      (fun t => t.obs) = some ⟨0x8000000000000001#64, 0x40A78D37#32⟩ := by decide

/-- V-RX, rows 1 and 2. -/
theorem test_rxframe :
    after (.rxframe 4#4 ⟨0x00#8, 0x00#8, 0xC8#8, 0x42#8⟩) s0 (fun t => t.mot.accel) =
      some 0x42C80000#32 ∧
    after (.rxframe 3#4 ⟨0x00#8, 0x00#8, 0xC8#8, 0x00#8⟩) s0 (fun t => t.mot.accel) =
      some 0#32 := by decide

/-- V-RX, row 6. -/
theorem test_rxframe_big_endian :
    after (.rxframe 4#4 ⟨0x42#8, 0xC8#8, 0x00#8, 0x00#8⟩)
      { s0 with cfg := { Config.cfgEx with wireBigEndian := true } } (fun t => t.mot.accel) =
      some 0x42C80000#32 := by decide

/-! ## Reset and the step -/

/-- V-RST. -/
theorem test_reset :
    after .reset ((comAt 6#3 9#31 .cw).setMot ⟨1#32, 2#32, 3#32⟩) id = some s0 := by decide

/-- P2, step 5, as a step. -/
theorem test_step_edge :
    afterStep (((comAt 1#3 3#31 .ccw).setDrv ⟨false, 0b011#3, 0b011#3, ⟨0#32, 3#32, 0#32⟩,
        ⟨0#32, 3#32, 0#32⟩⟩).withFetchWord 40 0x2000000003)
      (fun t => (t.enc, applied t, t.requests)) =
      some (⟨3#3, 1#64, .ccw, false⟩, (0b110#3, 0#32, 3#32, 0#32), []) := by decide

theorem test_step_refuses :
    refusalOfStep (s0.withFetchWord 40 0x5000000001) = some .reservedWord ∧
    refusalOfStep (s0.withFetchWord 36 0xF00000001) = some .badChannel ∧
    refusalOfStep (s0.withFetchWord 40 0x4080000000) = some .badDuty := by decide

theorem test_first_step_from_reset :
    afterStep (State.reset.withFetchWord 40 0x7000000000) (fun t => t.result) =
      some (some (.position 0#64)) := by decide

theorem test_step_before_reset_faults :
    (step ({ s0 with started := false }.withFetchWord 40 0x7000000000) matches .fault .unwrittenRegister) =
      true := by decide

/-! ## Witnesses: for each statement with hypotheses, states and operands that meet them together

The states are those of the tests above; a statement with several clauses has a witness for each. -/

/-- `s0` with words presented. -/
def serving (ws : List Request) : State := { s0 with requests := ws }

/-- The driver registers with a lock, equal masks and different duties. -/
def drvAt (locked : Bool) (a : Word) : Driver :=
  ⟨locked, 0b011#3, 0b011#3, ⟨100#32, 0#32, 255#32⟩, ⟨a, 0#32, 255#32⟩⟩

theorem witness_DecodeOfEncodeIsTheOperation :
    (Instr.setspeed 0x80000001#32).wf = true ∧ (Instr.rxframe 3#4 ⟨1#8, 2#8, 255#8, 0#8⟩).wf = true ∧
    (Instr.rxframe 15#4 ⟨1#8, 2#8, 3#8, 255#8⟩).wf = true ∧ Instr.reset.wf = true := by decide

theorem witness_EncodeOfDecodeIsTheWord :
    decode (.q 0xC300FF0201#40) = .instr (.rxframe 3#4 ⟨1#8, 2#8, 255#8, 0#8⟩) ∧
    decode (.p 0xEFFFFFFFF#36) = .instr (.duty .ch2 0xFFFFFFFF#32) := by decide

/-- One word for each clause of `ReservedWord`. -/
theorem witness_ReservedWordsAreRefused :
    ReservedWord (.q 0xD000000000#40) ∧ ReservedWord (.q 0xF000000000#40) ∧
    ReservedWord (.q 0x0100000000#40) ∧ ReservedWord (.q 0xB000000001#40) ∧
    ReservedWord (.q 0x2000000008#40) ∧ ReservedWord (.q 0x3100000001#40) ∧
    ReservedWord (.q 0x6F00000000#40) ∧ ReservedWord (.q 0xC000000001#40) ∧
    ReservedWord (.q 0xC301000000#40) ∧ ReservedWord (.p 0x100000000#36) ∧
    ReservedWord (.p 0x400000001#36) ∧ ReservedWord (.p 0x800000008#36) ∧
    ReservedWord (.p 0xB00000000#36) := by
  and_intros <;> (simp only [ReservedWord]; decide)

/-- The neighbours of the words above are not reserved. -/
theorem witness_words_beside_the_reserved_ones :
    ¬ ReservedWord (.q 0xC000000000#40) ∧ ¬ ReservedWord (.q 0xC300FFFFFF#40) ∧
    ¬ ReservedWord (.q 0xC4FFFFFFFF#40) ∧ ¬ ReservedWord (.q 0x2000000007#40) ∧
    ¬ ReservedWord (.q 0x0000000000#40) ∧ ¬ ReservedWord (.p 0x800000007#36) ∧
    ¬ ReservedWord (.p 0xC00000000#36) := by
  and_intros <;> (simp only [ReservedWord]; decide)

theorem witness_ReservedOperandsAreRefused :
    (serving [.p (3#2 ++ 3#2 ++ 0#32)]).requests = [.p (3#2 ++ 3#2 ++ 0#32)] ∧
    (serving [.q 0x4080000000#40, .q 0#40]).requests = .q 0x4080000000#40 :: [.q 0#40] := by decide

theorem witness_StepRunsTheDecodedOperation :
    (serving [.q 0x5000000000#40]).requests = .q 0x5000000000#40 :: [] ∧
    decode (.q 0x5000000000#40) = .instr .tick ∧
    (serving [.q 0x5000000000#40]).started = true ∧
    { serving [.q 0#40] with started := false }.requests = .q 0#40 :: [] ∧
    decode (.q 0#40) = .instr .reset := by decide

theorem witness_StepWithNothingPresentedIsIdle : s0.requests = [] := by decide

theorem witness_OperationBeforeResetFaults :
    { serving [.q 0x7000000000#40] with started := false }.requests = .q 0x7000000000#40 :: [] ∧
    decode (.q 0x7000000000#40) = .instr .getpos ∧
    { serving [.q 0x7000000000#40] with started := false }.started = false ∧
    Instr.getpos ≠ .reset := by decide

theorem witness_EveryPresentedOperationCompletes :
    (serving [.q 0x3000000007#40]).requests = .q 0x3000000007#40 :: [] ∧
    decode (.q 0x3000000007#40) = .instr (.commutate 7#3) ∧
    (serving [.q 0x3000000007#40]).started = true := by decide

theorem witness_WordsAreServedInListOrder :
    ∃ t, Host.Core.run Sys2Proof.core 2
      (serving [.q 0xA000000000#40, .q 0x7000000000#40, .q 0x8000000000#40]) = .next t ∧
      t.requests = [.q 0x8000000000#40] :=
  ⟨_, rfl, by decide⟩

theorem witness_UnlockAppliesTheShadowRegisters :
    (s0.setDrv (drvAt false 100#32)).drv.locked = false ∧
    (s0.setDrv (drvAt false 100#32)).drv.cfgA = (s0.setDrv (drvAt false 100#32)).drv.cfgS ∧
    (s0.setDrv (drvAt false 100#32)).drv.dutyA = (s0.setDrv (drvAt false 100#32)).drv.dutyS := by decide

/-- Both cases of the lock, and a value on either side of `PWM_MAX`. -/
theorem witness_DutyStoresTheClampedValue :
    (s0.setDrv (drvAt true 5#32)).drv.locked = true ∧ s0.drv.locked = false ∧ Channel.ch1 ≠ .ch0 ∧
    (min (255#32).toNat s0.cfg.pwmMax, min (256#32).toNat s0.cfg.pwmMax) = (255, 255) := by decide

theorem witness_TheLockDefersApplication :
    (s0.setDrv (drvAt true 5#32)).drv.locked = true ∧
    (∀ i ∈ [Instr.lock, .cfg 7#3, .duty .ch0 9#32],
      i = .lock ∨ (∃ m, i = .cfg m) ∨ (∃ c v, i = .duty c v)) ∧
    (s0.setDrv (drvAt false 100#32)).drv.locked = false ∧
    (s0.setDrv (drvAt false 100#32)).drv.cfgA = (s0.setDrv (drvAt false 100#32)).drv.cfgS ∧
    (s0.setDrv (drvAt false 100#32)).drv.dutyA = (s0.setDrv (drvAt false 100#32)).drv.dutyS ∧
    (∀ i ∈ [Instr.cfg 7#3, .duty .ch0 9#32], (∃ m, i = .cfg m) ∨ (∃ c v, i = .duty c v)) := by
  refine ⟨by decide, by simp, by decide, by decide, by decide, by simp⟩

/-- An operation that no clause excludes. -/
theorem witness_NothingElseWritesThePort :
    (∃ t, exec .observe (encAt 1#3 48#64 .cw false) = .next t) ∧ isDriverWord .observe = false ∧
    Instr.observe ≠ .reset ∧ Instr.observe ≠ .tick ∧ (∀ v, Instr.observe ≠ .edge v) ∧
    (∀ v, Instr.observe ≠ .commutate v) ∧ (∀ d, Instr.observe ≠ .setspeed d) :=
  ⟨⟨_, rfl⟩, by simp [isDriverWord]⟩

/-- One edge for each clause: duplicate, CW, CCW, and INVALID with either stored direction. -/
theorem witness_EdgeClassifiesCountsAndCommutates :
    3#3 = (encAt 3#3 0#64 .cw false).enc.prev ∧ 1#3 ≠ (encAt 3#3 0#64 .cw false).enc.prev ∧
    stepKey 3#3 1#3 ∈ [(1, 5), (5, 4), (4, 6), (6, 2), (2, 3), (3, 1)] ∧
    stepKey 1#3 3#3 ∈ [(5, 1), (4, 5), (6, 4), (2, 6), (3, 2), (1, 3)] ∧
    stepKey 1#3 6#3 ∉ [(1, 5), (5, 4), (4, 6), (6, 2), (2, 3), (3, 1)] ∧
    stepKey 1#3 6#3 ∉ [(5, 1), (4, 5), (6, 4), (2, 6), (3, 2), (1, 3)] ∧
    (encoderAfterEdge 6#3 ⟨1#3, 0#64, .cw, false⟩).dir = .cw ∧
    (encoderAfterEdge 6#3 ⟨1#3, 0#64, .ccw, false⟩).dir = .ccw := by decide

/-- A processed edge, a duplicate edge, and an operation that is no edge. -/
theorem witness_OnlyAProcessedEdgeMovesThePosition :
    (∃ t, exec (.edge 0#3) (encAt 1#3 0#64 .ccw false) = .next t ∧ t.enc.pos = 1#64) ∧
    Instr.edge 0#3 ≠ .reset ∧ 0#3 ≠ (encAt 1#3 0#64 .ccw false).enc.prev ∧
    (∃ t, exec (.edge 1#3) (encAt 1#3 0#64 .ccw false) = .next t) ∧
    (∀ cur, Instr.edge 1#3 = .edge cur → cur = (encAt 1#3 0#64 .ccw false).enc.prev) ∧
    (∃ t, exec .tick (encAt 1#3 0#64 .ccw false) = .next t) ∧
    (∀ cur, Instr.tick = .edge cur → cur = (encAt 1#3 0#64 .ccw false).enc.prev) :=
  ⟨⟨_, rfl, by decide⟩, by simp, by decide, ⟨_, rfl⟩, by rintro _ ⟨⟩; rfl, ⟨_, rfl⟩, by simp⟩

/-- A changed direction, a set flag and a cleared flag. -/
theorem witness_DirectionAndErrorChangeOnlyAsStated :
    (∃ t, exec (.edge 3#3) (encAt 1#3 0#64 .cw false) = .next t ∧ t.enc.dir ≠ .cw) ∧
    (∃ t, exec (.edge 6#3) (encAt 1#3 0#64 .cw false) = .next t ∧ t.enc.err = true) ∧
    (∃ t, exec .reseterr (encAt 1#3 0#64 .cw true) = .next t ∧ t.enc.err = false) :=
  ⟨⟨_, rfl, by decide⟩, ⟨_, rfl, by decide⟩, ⟨_, rfl, by decide⟩⟩

theorem witness_ValidSequencesCountTheirSteps :
    ValidPath (encAt 1#3 0#64 .cw false).enc.prev [5#3, 4#3, 6#3, 2#3, 6#3] ∧
    netTicks 1#3 [5#3, 4#3, 6#3, 2#3, 6#3] = -3 := by
  simp only [ValidPath]
  decide

theorem witness_NoOperationReadsTheErrorFlag :
    ∃ t, exec .geterr (encAt 4#3 0#64 .cw true) = .next t ∧ t.result = some (.error 1#1) :=
  ⟨_, rfl, by decide⟩

/-- Also of CommutateSplitsTheDuty. The last line meets the third channel's premise. -/
theorem witness_CommutateAppliesTheTableEntry :
    (comAt 1#3 300#31 .cw).cfg.table.wf = true ∧ 1#3 ≠ 0#3 ∧ 1#3 ≠ 7#3 ∧ 6#3 ≠ 0#3 ∧ 6#3 ≠ 7#3 ∧
    dutyGet (s0.setDrv (drvAt false 100#32)).drv.dutyA .ch2 =
      dutyGet (s0.setDrv (drvAt false 100#32)).drv.dutyS .ch2 := by decide

theorem witness_CommutateSplitsTheDuty :
    (comAt 1#3 300#31 .ccw).cfg.table.wf = true ∧ 6#3 ≠ 0#3 ∧ 6#3 ≠ 7#3 := by decide

theorem witness_CommutateOfAnInvalidVectorCompletes :
    (0#3 = 0#3 ∨ 0#3 = 7#3) ∧ (7#3 = 0#3 ∨ 7#3 = 7#3) := by decide

theorem witness_SetspeedStoresTheCommandAndCommutates :
    0x80000001#32 ≠ 0x80000000#32 ∧ (0x80000001#32).toInt < 0 ∧ 0 ≤ (0x7FFFFFFF#32).toInt ∧
    0 ≤ (0#32).toInt := by decide

theorem witness_NoStaleDutyIsApplied :
    (comAt 1#3 9#31 .cw).cfg.table.wf = true ∧ 5#3 ≠ 0#3 ∧ 5#3 ≠ 7#3 ∧
    (∃ t, exec (.commutate 5#3) (comAt 1#3 9#31 .cw) = .next t) ∧
    (∃ u, exec (.commutate 5#3) { comAt 1#3 9#31 .cw with drv := drvAt true 8#32 } = .next u) :=
  ⟨by decide, by decide, by decide, ⟨_, rfl⟩, ⟨_, rfl⟩⟩

theorem witness_TheAppliedTupleMovesOnce : 2#3 ≠ 0#3 ∧ 2#3 ≠ 7#3 := by decide

/-- A tick, a speed command, a processed edge and a duplicate edge. -/
theorem witness_FiveWordsPerCommutation :
    (encAt 1#3 0#64 .cw false).enc.prev ≠ 0#3 ∧ (encAt 1#3 0#64 .cw false).enc.prev ≠ 7#3 ∧
    (∃ t, exec .tick (encAt 1#3 0#64 .cw false) = .next t) ∧
    (∃ t, exec (.setspeed 5#32) (encAt 1#3 0#64 .cw false) = .next t) ∧
    (5#3 ≠ (encAt 1#3 0#64 .cw false).enc.prev ∧ 5#3 ≠ 0#3 ∧ 5#3 ≠ 7#3) ∧
    (∃ t, exec (.edge 5#3) (encAt 1#3 0#64 .cw false) = .next t) ∧
    (∃ t, exec (.edge 1#3) (encAt 1#3 0#64 .cw false) = .next t) :=
  ⟨by decide, by decide, ⟨_, rfl⟩, ⟨_, rfl⟩, by decide, ⟨_, rfl⟩, ⟨_, rfl⟩⟩

/-- The stored vector is valid, which the last clause asks for. -/
theorem witness_FreeValuesDoNotReachDefinedMotion :
    (∃ t u, exec .tick (motAt 0x42C80000#32 0#32) = .next t ∧
      exec .tick { motAt 0x42C80000#32 0#32 with draws := 7 } = .next u ∧
      roundI32Domain
        (f32Mul (freeNaN ((motAt 0x42C80000#32 0#32).draws + 3))
          (f32Mul (freeNaN ((motAt 0x42C80000#32 0#32).draws + 2))
            (motAt 0x42C80000#32 0#32).cfg.pwmVoltsRatio
            (motAt 0x42C80000#32 0#32).cfg.motorSpeedConstant)
          t.mot.speed) = true) ∧
    (motAt 0x42C80000#32 0#32).enc.prev ≠ 0#3 ∧ (motAt 0x42C80000#32 0#32).enc.prev ≠ 7#3 :=
  ⟨⟨_, _, rfl, rfl, by decide⟩, by decide, by decide⟩

/-- A tie inside the domain, its last pattern, and the first outside. -/
theorem witness_RoundI32IsNearestTiesAway :
    roundI32Domain 0x3F000000#32 = true ∧
    |2 * ((roundI32 0#32 0x3F000000#32).toInt * 2 ^ 149 - f32Units 0x3F000000#32)| = 2 ^ 149 ∧
    roundI32Domain 0xCEFFFFFF#32 = true ∧ roundI32Domain 0x4F000000#32 = false := by decide

/-- The largest finite value and the least subnormal; a sum that overflows, and a tie at 2^24 + 1. -/
theorem witness_FloatSumIsNearestTiesToEven :
    f32IsFinite 0x7F7FFFFF#32 = true ∧ f32IsFinite 0x80000001#32 = true ∧
    f32IsFinite (f32Add 0#32 0x7F7FFFFF#32 0x7F7FFFFF#32) = false ∧
    f32IsFinite (f32Add 0#32 0x4B800000#32 0x3F800000#32) = true ∧
    f32Units 0x4B800001#32 ≠ f32Units (f32Add 0#32 0x4B800000#32 0x3F800000#32) ∧
    |f32Units 0x4B800001#32 - (f32Units 0x4B800000#32 + f32Units 0x3F800000#32)| =
      |f32Units (f32Add 0#32 0x4B800000#32 0x3F800000#32) -
        (f32Units 0x4B800000#32 + f32Units 0x3F800000#32)| := by decide

/-- Half of the least subnormal is a tie between it and zero. -/
theorem witness_FloatProductIsNearestTiesToEven :
    f32IsFinite 0x00000001#32 = true ∧ f32IsFinite 0x3F000000#32 = true ∧
    f32IsFinite (f32Mul 0#32 0x00000001#32 0x3F000000#32) = true ∧
    f32Units 0x00000001#32 ≠ f32Units (f32Mul 0#32 0x00000001#32 0x3F000000#32) ∧
    |f32Units 0x00000001#32 * 2 ^ 149 - f32Units 0x00000001#32 * f32Units 0x3F000000#32| =
      |f32Units (f32Mul 0#32 0x00000001#32 0x3F000000#32) * 2 ^ 149 -
        f32Units 0x00000001#32 * f32Units 0x3F000000#32| ∧
    f32IsFinite (f32Mul 0#32 0x7F7FFFFF#32 0xC0000000#32) = false := by decide

theorem witness_FloatQuotientIsNearestTiesToEven :
    f32IsFinite 0x00000001#32 = true ∧ f32IsFinite 0x40000000#32 = true ∧
    f32Units 0x40000000#32 ≠ 0 ∧
    f32IsFinite (f32Div 0#32 0x00000001#32 0x40000000#32) = true ∧
    f32Units 0x00000001#32 ≠ f32Units (f32Div 0#32 0x00000001#32 0x40000000#32) ∧
    |f32Units 0x00000001#32 * f32Units 0x40000000#32 - f32Units 0x00000001#32 * 2 ^ 149| =
      |f32Units (f32Div 0#32 0x00000001#32 0x40000000#32) * f32Units 0x40000000#32 -
        f32Units 0x00000001#32 * 2 ^ 149| ∧
    f32IsFinite (f32Div 0#32 0x7F7FFFFF#32 0x3F000000#32) = false := by decide

theorem witness_InvalidFloatOperationsGiveTheFreeNaN :
    f32IsNaN 0xFFC00001#32 = true ∧ f32IsInf 0x7F800000#32 = true ∧ f32IsInf 0xFF800000#32 = true ∧
    f32Neg 0x7F800000#32 ≠ f32Neg 0xFF800000#32 ∧ f32IsZero 0x80000000#32 = true := by decide

theorem witness_IntegrationOfAHundredIsExact :
    2 ^ 24 ≤ 2 ^ 24 ∧ (motAt 0x42C80000#32 0#32).mot.accel = 0x42C80000#32 ∧
    (motAt 0x42C80000#32 0#32).mot.speed = 0#32 := by decide

/-- The last line: zeros of either sign, with an invalid vector stored, meet the other premises too. -/
theorem witness_ZeroCommandStaysZero :
    f32IsZero (motAt 0#32 0#32).mot.accel = true ∧ f32IsZero (motAt 0#32 0#32).mot.speed = true ∧
    (∀ nan, f32IsFinite (f32Mul nan (motAt 0#32 0#32).cfg.pwmVoltsRatio
      (motAt 0#32 0#32).cfg.motorSpeedConstant) = true) ∧
    (motAt 0#32 0#32).mot.speed = 0#32 ∧ (motAt 0#32 0#32).mot.vcmd = 0#32 ∧
    (motAt 0#32 0#32).enc.prev ≠ 0#3 ∧ (motAt 0#32 0#32).enc.prev ≠ 7#3 ∧
    (∀ c, dutyGet (motAt 0#32 0#32).drv.dutyS c = 0#32 ∧
      dutyGet (motAt 0#32 0#32).drv.dutyA c = 0#32) ∧
    f32IsZero ((encAt 0#3 0#64 .cw false).setMot ⟨0x80000000#32, 0x80000000#32, 5#32⟩).mot.speed = true :=
  ⟨by decide, by decide,
    fun nan => (f32Mul_of_le (by decide) (by decide) (2 ^ 150) (by decide) (by norm_num) nan).2.1,
    by decide, by decide, by decide, by decide, fun c => by cases c <;> decide, by decide⟩

/-- A register of each group changed by a writer of its own. -/
theorem witness_EveryRegisterHasItsWriters :
    (∃ t, exec (.edge 3#3) s0 = .next t ∧ t.enc.prev ≠ s0.enc.prev ∧ t.enc.dir ≠ s0.enc.dir) ∧
    (∃ t, exec .reseterr (encAt 1#3 0#64 .cw true) = .next t ∧ t.enc.err ≠ true) ∧
    (∃ t, exec (.setaccel 1#32) s0 = .next t ∧ t.mot.accel ≠ s0.mot.accel) ∧
    (∃ t, exec .tick (motAt 0x42C80000#32 0#32) = .next t ∧ t.mot.speed ≠ 0#32) ∧
    (∃ t, exec (.setspeed 1#32) s0 = .next t ∧ t.com ≠ s0.com) ∧
    (∃ t, exec (.commutate 1#3) s0 = .next t ∧ t.drv ≠ s0.drv) ∧
    (∃ t, exec .observe (encAt 1#3 1#64 .cw false) = .next t ∧ t.obs ≠ s0.obs) :=
  ⟨⟨_, rfl, by decide⟩, ⟨_, rfl, by decide⟩, ⟨_, rfl, by decide⟩, ⟨_, rfl, by decide⟩,
    ⟨_, rfl, by decide⟩, ⟨_, rfl, by decide⟩, ⟨_, rfl, by decide⟩⟩

theorem witness_TheObserverIsNotReadByTheCore :
    Instr.tick ≠ .observe ∧ ∃ t, exec .tick (motAt 0x42C80000#32 0#32) = .next t :=
  ⟨by simp, _, rfl⟩

theorem witness_ObserveMeasuresAndReturnsTheFrame :
    s0.cfg.wireBigEndian = false ∧
    { s0 with cfg := { Config.cfgEx with wireBigEndian := true } }.cfg.wireBigEndian = true := by decide

theorem witness_RxframeStoresFourBytesOrNothing :
    3#4 ≠ 4#4 ∧ 5#4 ≠ 4#4 ∧ 4#4 = 4#4 := by decide

theorem witness_OtherFramesLeaveNoTrace : s0.cfg.idSetAccel = 1 ∧ 2 ≠ s0.cfg.idSetAccel ∧ 3#4 ≠ 4#4 := by decide

theorem witness_FirstEdgeAfterZeroHallResetIsInvalid :
    (State.resetWith { Config.cfgEx with hallReset := 0#3 }).cfg.hallReset = 0#3 ∧ 1#3 ≠ 0#3 := by decide

theorem witness_EveryStepKeepsTheInvariant :
    BlockInv (serving [.q 0x5000000000#40]) ∧ ∃ t, step (serving [.q 0x5000000000#40]) = .next t :=
  ⟨⟨by decide, fun c => by cases c <;> decide, by decide⟩, _, rfl⟩

theorem witness_TheResetStateMeetsTheInvariant : Config.cfgEx.wf = true := by decide

theorem witness_RequestsLeaveTheDriverUnlocked :
    isDriverWord (.edge 7#3) = false ∧ s0.drv.locked = false ∧ ∃ t, exec (.edge 7#3) s0 = .next t :=
  ⟨by decide, by decide, _, rfl⟩

theorem witness_CommutationFollowsTheVoltageCommand :
    (∃ t, exec .tick (motAt 0x42C80000#32 0#32) = .next t) ∧
    (∀ d, Instr.edge 5#3 ≠ .setspeed d) ∧ ComFollowsVcmd s0 ∧ ∃ t, exec (.edge 5#3) s0 = .next t :=
  ⟨⟨_, rfl⟩, by simp, by simp only [ComFollowsVcmd]; decide, _, rfl⟩

/-- The ends of the 64-bit range, and a tie: 2^24 + 1 lies midway between two values. -/
theorem witness_IntegerConversionIsNearestTiesToEven :
    |(-2 ^ 63 : Int)| ≤ 2 ^ 63 ∧ |(2 ^ 63 - 1 : Int)| ≤ 2 ^ 63 ∧ |(0 : Int)| ≤ 2 ^ 63 ∧
    |(2 ^ 24 + 1 : Int)| ≤ 2 ^ 63 ∧ f32IsFinite 0x4B800001#32 = true ∧
    f32Units 0x4B800001#32 ≠ f32Units (f32OfInt (2 ^ 24 + 1)) ∧
    |f32Units 0x4B800001#32 - (2 ^ 24 + 1) * 2 ^ 149| =
      |f32Units (f32OfInt (2 ^ 24 + 1)) - (2 ^ 24 + 1) * 2 ^ 149| := by decide

/-- `f32(2^24 + 1)` is 2^24 and `f32(2^24 + 3)` is 2^24 + 4 (R17: to nearest, ties to even). -/
theorem test_integer_conversion :
    f32OfInt (2 ^ 24 + 1) = 0x4B800000#32 ∧ f32OfInt (2 ^ 24 + 3) = 0x4B800002#32 ∧
    f32OfInt (-(2 ^ 24 + 3)) = 0xCB800002#32 ∧ f32OfInt 0 = 0#32 := by decide

theorem witness_InfiniteOperandsGiveTheirResults :
    f32IsInf 0xFF800000#32 = true ∧ f32IsFinite 0x42C80000#32 = true ∧
    f32Neg 0xFF800000#32 = f32Neg 0xFF800000#32 ∧ f32IsNaN 0x7F800000#32 = false ∧
    f32IsZero 0x7F800000#32 = false ∧ f32IsZero 0x42C80000#32 = false ∧ f32IsZero 0x80000000#32 = true ∧
    f32IsFinite 0x80000000#32 = true ∧ f32Units 0x80000000#32 + f32Units 0x80000000#32 = 0 ∧
    f32IsInf (motAt 0x7F800000#32 1#32).mot.accel = true ∧
    f32IsFinite (motAt 0x7F800000#32 1#32).mot.speed = true ∧
    f32IsFinite (motAt 0xFF7FFFFF#32 0x7F800000#32).mot.accel = true ∧
    f32IsInf (motAt 0xFF7FFFFF#32 0x7F800000#32).mot.speed = true := by decide

end Sys2Proof.Tests
end

section
/-! SUPPORT. The sampled vector: its bits, its place in the word of SAMPLE, and what SAMPLE leaves behind. -/

namespace Sys2Proof.Machine

/-- 30_encoding.md R70: the vector bit by bit, in the form whose bits the library reads. -/
theorem hallVector_eq_concat (h1 h2 h3 : Bool) :
    hallVector h1 h2 h3 = ((BitVec.ofBool h3).concat h2).concat h1 := rfl

/-- 30_encoding.md R70: bit 0 is the level of sensor H1. -/
@[simp] theorem hallVector_getElem_zero (h1 h2 h3 : Bool) : (hallVector h1 h2 h3)[0] = h1 := by
  simp [hallVector_eq_concat]

/-- 30_encoding.md R70: bit 1 is the level of sensor H2. -/
@[simp] theorem hallVector_getElem_one (h1 h2 h3 : Bool) : (hallVector h1 h2 h3)[1] = h2 := by
  simp [hallVector_eq_concat]

/-- 30_encoding.md R70: bit 2 is the level of sensor H3. -/
@[simp] theorem hallVector_getElem_two (h1 h2 h3 : Bool) : (hallVector h1 h2 h3)[2] = h3 := by
  simp [hallVector_eq_concat]

/-- 41_position_encoder.md R120: SAMPLE only sets the result. -/
theorem exec_sample (h1 h2 h3 : Bool) (s : State) :
    exec (.sample h1 h2 h3) s = .next { s with result := some (.vector (hallVector h1 h2 h3)) } := rfl

/-- 30_encoding.md R79, R80: a word whose main operand is a vector, written as one run of fields. -/
theorem wordQ_argOfVector (op aux : BitVec 4) (v : BitVec 3) :
    wordQ op aux (argOfVector v) = .q (op ++ aux ++ 0#29 ++ v) :=
  congrArg Request.q (BitVec.append_assoc (x₁ := op ++ aux) (x₂ := 0#29) (x₃ := v)).symm

/-- The operand of SAMPLE's word is the vector SAMPLE returns (30_encoding.md R70, R80). -/
theorem argOfPins_eq_argOfVector (h1 h2 h3 : Bool) :
    argOfPins h1 h2 h3 = argOfVector (hallVector h1 h2 h3) := rfl

/-- The word of SAMPLE (30_encoding.md R80). -/
theorem encode_sample (h1 h2 h3 : Bool) :
    encode (.sample h1 h2 h3) = .q (0x1#4 ++ 0#4 ++ 0#29 ++ hallVector h1 h2 h3) := by
  rw [encode, argOfPins_eq_argOfVector, wordQ_argOfVector]

/-- Settles O11: the vector is `hallVector`, whose bits are the pins. -/
theorem sampleReturnsTheVectorOfThePins : Obligations.SampleReturnsTheVectorOfThePins := by
  intro h1 h2 h3 s
  exact ⟨hallVector h1 h2 h3, hallVector_getElem_zero .., hallVector_getElem_one ..,
    hallVector_getElem_two .., exec_sample .., encode_sample ..⟩

end Sys2Proof.Machine
end

section
/-! SUPPORT. The driver operations LOCK, UNLOCK, CFG and DUTY: what each leaves in the driver registers,
and the words of CFG. -/

namespace Sys2Proof.Machine

/-! ### DUTY at the port -/

section
variable (p : Nat) (ch : Channel) (v : Word) (d : Driver)

@[simp] theorem portDuty_locked : (portDuty p ch v d).locked = d.locked := rfl
@[simp] theorem portDuty_cfgS : (portDuty p ch v d).cfgS = d.cfgS := rfl
@[simp] theorem portDuty_cfgA : (portDuty p ch v d).cfgA = d.cfgA := rfl
@[simp] theorem portDuty_dutyS :
    (portDuty p ch v d).dutyS = dutySet d.dutyS ch (clampDuty p v) := rfl

variable {p ch v d}

/-- 40_phase_driver_port.md R103: under the lock DUTY does not reach the applied duties. -/
theorem portDuty_dutyA_of_locked (h : d.locked = true) : (portDuty p ch v d).dutyA = d.dutyA :=
  if_pos h

/-- 40_phase_driver_port.md R103: unlocked, DUTY writes the applied duty as it writes the shadow duty. -/
theorem portDuty_dutyA_of_unlocked (h : d.locked = false) :
    (portDuty p ch v d).dutyA = dutySet d.dutyA ch (clampDuty p v) :=
  if_neg (by simp [h])

/-- 40_phase_driver_port.md R103: the applied duties of the other channels stay, locked or not. -/
theorem portDuty_dutyA_of_ne {c : Channel} (hc : c ≠ ch) :
    dutyGet (portDuty p ch v d).dutyA c = dutyGet d.dutyA c := by
  cases h : d.locked with
  | true => rw [portDuty_dutyA_of_locked h]
  | false => simp [portDuty_dutyA_of_unlocked h, hc]

end

/-- Settles O18: the clamp is a minimum, and `dutySet` writes one channel. -/
theorem dutyStoresTheClampedValue : Obligations.DutyStoresTheClampedValue := by
  intro ch value s
  refine ⟨rfl, _, exec_duty ch value s, ?shadow, ?unlocked, ?locked, ?others, rfl, rfl, rfl, rfl⟩
  case shadow => simp [clampDuty_toNat]
  case unlocked =>
    intro h
    simp [portDuty_dutyA_of_unlocked h, clampDuty_toNat]
  case locked => exact portDuty_dutyA_of_locked
  case others =>
    intro c hc
    exact ⟨by simp [hc], portDuty_dutyA_of_ne hc⟩

/-! ### LOCK, UNLOCK and CFG -/

/-- Settles O15: the word is a constant and `portLock` writes one field. -/
theorem lockSetsOnlyTheLock : Obligations.LockSetsOnlyTheLock :=
  ⟨rfl, exec_lock⟩

/-- 40_phase_driver_port.md R102: unlocked and with equal copies, UNLOCK leaves the driver as it is. -/
theorem portUnlock_of_copies_equal {d : Driver} (hl : d.locked = false) (hc : d.cfgA = d.cfgS)
    (hd : d.dutyA = d.dutyS) : portUnlock d = d := by
  cases d
  cases hl
  cases hc
  cases hd
  rfl

@[simp] theorem State.setDrv_drv_self (s : State) : s.setDrv s.drv = s := rfl

/-- Settles O16: the copies are `portUnlock`, which is the identity on equal copies. -/
theorem unlockAppliesTheShadowRegisters : Obligations.UnlockAppliesTheShadowRegisters := by
  refine ⟨rfl, fun s => ⟨exec_unlock s, fun hl hc hd => ?_⟩⟩
  rw [exec_unlock, portUnlock_of_copies_equal hl hc hd, State.setDrv_drv_self]

/-- 30_encoding.md R85: a driver word whose value is a mask, written as one run of fields. -/
theorem wordP_argOfVector (dop ch : BitVec 2) (m : BitVec 3) :
    wordP dop ch (argOfVector m) = .p (dop ++ ch ++ 0#29 ++ m) :=
  congrArg Request.p (BitVec.append_assoc (x₁ := dop ++ ch) (x₂ := 0#29) (x₃ := m)).symm

/-- Settles O17: the mask is the low bits of the word, and `portCfg` writes the mask registers alone. -/
theorem cfgWritesTheMask : Obligations.CfgWritesTheMask :=
  fun m s => ⟨wordP_argOfVector 2#2 0#2 m, exec_cfg m s⟩

end Sys2Proof.Machine
end

section
/-! SUPPORT. The position encoder: the class of a step by its pair of vectors, the registers after a
processed edge in each class, and the accessors. -/

namespace Sys2Proof.Machine

/-! ### The class of a step, by its pair of vectors (30_encoding.md R74) -/

/-- The six CW codes are those of the six CW pairs, among the 64 pairs of vectors. -/
theorem classify_cw_iff : ∀ prev cur : HallVector,
    classify (transitionCode prev cur) = .cw ↔ stepKey prev cur ∈ cwSteps := by decide

/-- The six CCW codes are those of the six CCW pairs. -/
theorem classify_ccw_iff : ∀ prev cur : HallVector,
    classify (transitionCode prev cur) = .ccw ↔ stepKey prev cur ∈ ccwSteps := by decide

/-- A step is INVALID when it is neither, since the class has three values. -/
theorem classify_invalid_iff (prev cur : HallVector) :
    classify (transitionCode prev cur) = .invalid ↔
      stepKey prev cur ∉ cwSteps ∧ stepKey prev cur ∉ ccwSteps := by
  rw [← classify_cw_iff, ← classify_ccw_iff]
  cases classify (transitionCode prev cur) <;> simp

/-! ### The encoder after a processed edge (41_position_encoder.md R122, R123) -/

section
variable {cur : HallVector} {e : Encoder}

theorem encoderAfterEdge_of_class {c : StepClass} (h : classify (transitionCode e.prev cur) = c) :
    encoderAfterEdge cur e =
      { prev := cur, pos := nextPos e.pos (dirAfter c e.dir), dir := dirAfter c e.dir,
        err := errAfter c e.err } := by
  subst h
  rfl

theorem encoderAfterEdge_of_cw (h : stepKey e.prev cur ∈ cwSteps) :
    encoderAfterEdge cur e = { prev := cur, pos := e.pos - 1#64, dir := .cw, err := e.err } :=
  encoderAfterEdge_of_class ((classify_cw_iff _ _).mpr h)

theorem encoderAfterEdge_of_ccw (h : stepKey e.prev cur ∈ ccwSteps) :
    encoderAfterEdge cur e = { prev := cur, pos := e.pos + 1#64, dir := .ccw, err := e.err } :=
  encoderAfterEdge_of_class ((classify_ccw_iff _ _).mpr h)

/-- An INVALID step counts in the direction stored before it. -/
theorem encoderAfterEdge_of_invalid (hcw : stepKey e.prev cur ∉ cwSteps)
    (hccw : stepKey e.prev cur ∉ ccwSteps) :
    encoderAfterEdge cur e =
      { prev := cur, pos := nextPos e.pos e.dir, dir := e.dir, err := true } :=
  encoderAfterEdge_of_class ((classify_invalid_iff _ _).mpr ⟨hcw, hccw⟩)

end

/-- A processed edge is a commutation with the new encoder registers in place (R123, steps 2 to 6). -/
theorem exec_edge_eq_commutate {cur : HallVector} {s : State} (h : cur ≠ s.enc.prev) :
    exec (.edge cur) s =
      exec (.commutate cur) { s with enc := encoderAfterEdge cur s.enc } :=
  exec_edge_of_ne h

/-- Settles O21: the new encoder registers are those of `encoderAfterEdge`, in each class of the step,
and the commutation that follows leaves them and every register but the driver's. -/
theorem edgeClassifiesCountsAndCommutates : Obligations.EdgeClassifiesCountsAndCommutates := by
  intro cur s
  refine ⟨wordQ_argOfVector 0x2#4 0#4 cur, ?duplicate, fun hne => ?processed⟩
  case duplicate =>
    rintro rfl
    exact exec_edge_same s
  case processed =>
    refine ⟨encoderAfterEdge cur s.enc, commutate cur (s.setEnc (encoderAfterEdge cur s.enc)),
      rfl, fun hcw => ?cw, fun hccw => ?ccw, fun hcw hccw => ?invalid, fun hdir => ?up,
      fun hdir => ?down, exec_edge_eq_commutate hne, exec_edge_of_ne hne, ?frame⟩
    case cw => simp [encoderAfterEdge_of_cw hcw]
    case ccw => simp [encoderAfterEdge_of_ccw hccw]
    case invalid => simp [encoderAfterEdge_of_invalid hcw hccw]
    case up => simp [encoderAfterEdge_pos, hdir]
    case down => simp [encoderAfterEdge_pos, hdir]
    case frame => simp

/-! ### The accessors and RESETERR (41_position_encoder.md R124 to R127) -/

theorem exec_getpos (s : State) :
    exec .getpos s = .next { s with result := some (.position s.enc.pos) } := rfl

theorem exec_getdir (s : State) :
    exec .getdir s = .next { s with result := some (.direction (dirBit s.enc.dir)) } := rfl

theorem exec_geterr (s : State) :
    exec .geterr s = .next { s with result := some (.error (BitVec.ofBool s.enc.err)) } := rfl

theorem exec_reseterr (s : State) :
    exec .reseterr s = .next (s.setEnc { s.enc with err := false }) := rfl

/-- The direction bit of 30_encoding.md R75. -/
theorem dirBit_eq_ite (d : Dir) : dirBit d = if d = .cw then 0#1 else 1#1 := by
  cases d <;> rfl

/-- Settles O12: each accessor writes the result alone; the two bits are read off by their cases. -/
theorem accessorsReturnTheirRegisters : Obligations.AccessorsReturnTheirRegisters := by
  refine ⟨⟨rfl, rfl, rfl⟩, fun s => ⟨exec_getpos s, ?direction, ?error⟩⟩
  case direction => rw [exec_getdir, dirBit_eq_ite]
  case error =>
    rw [exec_geterr]
    cases s.enc.err <;> rfl

/-- Settles O13: the word is a constant and RESETERR writes one field. -/
theorem reseterrClearsOnlyTheErrorFlag : Obligations.ReseterrClearsOnlyTheErrorFlag :=
  ⟨rfl, exec_reseterr⟩

end Sys2Proof.Machine
end

section
/-! SUPPORT. The commutation engine: the table entry of a valid vector, the driver registers after the
five words, and the command SETSPEED stores. -/

namespace Sys2Proof.Machine

/-! ### The table entry of a valid vector (42_commutation_engine.md R151) -/

/-- The entry of one direction for a vector. It is total: 000 and 111, which have no entry in the table,
read the last sector here. -/
def sectorEntry (half : SectorTable) (v : HallVector) : Entry :=
  match v.toNat with
  | 1 => half.v1
  | 2 => half.v2
  | 3 => half.v3
  | 4 => half.v4
  | 5 => half.v5
  | _ => half.v6

/-- The six valid vectors, each with its own sector. -/
theorem tableEntry_eq_sectorEntry (t : CommTable) (dir : Dir) {v : HallVector} (h0 : v ≠ 0#3)
    (h7 : v ≠ 7#3) : tableEntry t dir v = some (sectorEntry (sectors t dir) v) := by
  rcases v with ⟨⟨n, hn⟩⟩
  interval_cases n
  exacts [absurd rfl h0, rfl, rfl, rfl, rfl, rfl, rfl, absurd rfl h7]

/-! ### The driver registers after the five words (42_commutation_engine.md R153) -/

section
variable (p : Nat) (e : Entry) (mag : BitVec 31) (d : Driver)

@[simp] theorem portRun_commutationWords_locked :
    (portRun p (commutationWords e mag) d).locked = false := by
  rw [portRun_commutationWords]

@[simp] theorem portRun_commutationWords_cfgS :
    (portRun p (commutationWords e mag) d).cfgS = e.mask := by
  rw [portRun_commutationWords]

@[simp] theorem portRun_commutationWords_cfgA :
    (portRun p (commutationWords e mag) d).cfgA = e.mask := by
  rw [portRun_commutationWords]

/-- The last word copies the shadow duties, of all three channels, to the applied ones. -/
@[simp] theorem portRun_commutationWords_dutyA :
    (portRun p (commutationWords e mag) d).dutyA = (portRun p (commutationWords e mag) d).dutyS := by
  rw [portRun_commutationWords]

/-- The shadow duty of each channel: 0 on `lo`, the clamped magnitude on `hi`, the third as it was. -/
@[simp] theorem portRun_commutationWords_dutyS (c : Channel) :
    dutyGet (portRun p (commutationWords e mag) d).dutyS c =
      if c = e.lo then 0#32
      else if c = e.hi then clampDuty p (mag.setWidth 32) else dutyGet d.dutyS c := by
  simp [portRun_commutationWords]

end

/-- A magnitude as an operand of DUTY is the magnitude below a zero bit (30_encoding.md R76, R85). -/
theorem setWidth_eq_zero_append (mag : BitVec 31) : mag.setWidth 32 = 0#1 ++ mag :=
  BitVec.setWidth_eq_append (by decide)

/-- The clamp of a magnitude as a minimum (40_phase_driver_port.md R103). -/
theorem clampDuty_setWidth_toNat (p : Nat) (mag : BitVec 31) :
    (clampDuty p (mag.setWidth 32)).toNat = min mag.toNat p := by
  rw [clampDuty_toNat, BitVec.toNat_setWidth_of_le (by decide)]

/-- Settles O27: the entry is the table's, so the words are `commutationWords`, and the registers are
those the five words leave. -/
theorem commutateAppliesTheTableEntry : Obligations.CommutateAppliesTheTableEntry := by
  intro v s ht h0 h7 half e
  have he : tableEntry s.cfg.table s.com.dir v = some e := tableEntry_eq_sectorEntry _ _ h0 h7
  obtain ⟨hne, -⟩ := (entry_wf_iff e).mp (tableEntry_wf ht he)
  refine ⟨wordQ_argOfVector 0x3#4 0#4 v, send (commutationWords e s.com.mag) s, ?completes, ?words,
    portRun_commutationWords_locked .., portRun_commutationWords_cfgS ..,
    portRun_commutationWords_cfgA .., ?hiShadow, ?hiApplied, ?loShadow, ?loApplied,
    fun c hhi hlo => ?third, rfl⟩
  case completes => rw [exec_commutate, commutate_of_entry he]
  case words => rw [send_emitted, commutationWords, setWidth_eq_zero_append]
  case hiShadow | hiApplied => simp [hne, clampDuty_setWidth_toNat]
  case loShadow | loApplied => simp
  case third =>
    refine ⟨by simp [hhi, hlo], fun heq => ?_⟩
    rw [heq]
    simp [hhi, hlo]

/-! ### SETSPEED (42_commutation_engine.md R155) -/

/-- SETSPEED is COMMUTATE with the stored vector and the new commutation registers in place. -/
theorem exec_setspeed_eq_commutate {d : Word} (h : d ≠ 0x80000000#32) (s : State) :
    exec (.setspeed d) s =
      exec (.commutate s.enc.prev)
        { s with com := { mag := dutyMagnitude d, dir := dutyDirection d } } := by
  rw [exec_setspeed_of_ok h, setSpeed_eq, exec_commutate]

/-- Settles O29: the registers stored are the magnitude and the direction of 30_encoding.md R76, and the
commutation that follows writes the driver registers alone. -/
theorem setspeedStoresTheCommandAndCommutates :
    Obligations.SetspeedStoresTheCommandAndCommutates := by
  intro d s hd
  refine ⟨rfl, { mag := dutyMagnitude d, dir := dutyDirection d }, setSpeed d s,
    dutyMagnitude_toNat d hd, (dutyDirection_cw_iff d).mpr, fun hpos => ?ccw,
    exec_setspeed_eq_commutate hd s, exec_setspeed_of_ok hd s, setSpeed_com d s, setSpeed_enc d s,
    setSpeed_mot d s, setSpeed_obs d s, setSpeed_cfg d s, setSpeed_started d s,
    setSpeed_requests d s, setSpeed_result d s⟩
  case ccw => rw [dutyDirection_eq, if_neg (not_lt.mpr hpos)]

end Sys2Proof.Machine
end

section
/-! SUPPORT. The speed controller: `round_i32` in units of 2^-149, the range of the voltage command, and
what TICK and SETACCEL do. -/

namespace Sys2Proof.Machine

/-! ### Rounding a magnitude (43_speed_controller.md R173) -/

/-- A magnitude lies in the half-open interval of one quantum around what it is rounded to. Its lower
end, from which the rounding goes up, is the tie. -/
theorem roundHalfUp_bounds (m : Nat) :
    2 * (roundHalfUp m * 2 ^ 149) ≤ 2 * m + 2 ^ 149 ∧
    2 * m < 2 * (roundHalfUp m * 2 ^ 149) + 2 ^ 149 := by
  have hle : roundHalfUp m * 2 ^ 150 ≤ 2 * m + 2 ^ 149 := Nat.div_mul_le_self ..
  have hlt : 2 * m + 2 ^ 149 < roundHalfUp m * 2 ^ 150 + 2 ^ 150 :=
    Nat.lt_div_mul_add (by positivity)
  omega

/-- A magnitude is rounded to a nearest integer. -/
theorem roundHalfUp_nearest (m : Nat) :
    |2 * ((roundHalfUp m : Int) * 2 ^ 149 - m)| ≤ 2 ^ 149 := by
  obtain ⟨hle, hlt⟩ := roundHalfUp_bounds m
  rw [abs_le]
  omega

/-- A magnitude half way between two integers is rounded up. -/
theorem lt_roundHalfUp_of_tie {m : Nat}
    (h : |2 * ((roundHalfUp m : Int) * 2 ^ 149 - m)| = 2 ^ 149) :
    m < roundHalfUp m * 2 ^ 149 := by
  obtain ⟨hle, hlt⟩ := roundHalfUp_bounds m
  rcases eq_or_eq_neg_of_abs_eq h with h | h <;> omega

/-- A magnitude in the domain of `round_i32` is rounded to at most its end, 2^31 - 128. -/
theorem roundHalfUp_le {m : Nat} (h : m ≤ 2147483520 * 2 ^ 149) : roundHalfUp m ≤ 2147483520 := by
  obtain ⟨hle, -⟩ := roundHalfUp_bounds m
  omega

/-! ### `round_i32` (43_speed_controller.md R173) -/

section
variable {any x : Word}

theorem roundI32_of_not_domain (h : roundI32Domain x = false) : roundI32 any x = any :=
  if_neg (by simp [h])

/-- In the domain, the magnitude of the result is the rounded magnitude. -/
theorem roundI32_abs (h : roundI32Domain x = true) :
    |(roundI32 any x).toInt| = roundHalfUp (f32Mag x) := by
  rw [roundI32_toInt any x h]
  split <;> simp

/-- In the domain, the distance of the result from the value is that of their magnitudes, since the
result takes the sign of the value. -/
theorem roundI32_distance (h : roundI32Domain x = true) :
    |2 * ((roundI32 any x).toInt * 2 ^ 149 - f32Units x)| =
      |2 * ((roundHalfUp (f32Mag x) : Int) * 2 ^ 149 - f32Mag x)| := by
  rw [roundI32_toInt any x h, f32Units]
  cases f32Neg x with
  | false => rfl
  | true =>
    rw [if_pos rfl, if_pos rfl, ← abs_neg]
    congr 1
    ring

theorem roundI32_abs_le (h : roundI32Domain x = true) : |(roundI32 any x).toInt| ≤ 2 ^ 31 - 128 := by
  have hle := roundHalfUp_le ((roundI32Domain_iff x).mp h).2
  rw [roundI32_abs h]
  omega

/-- The result is never the reserved duty, unless the free value is. -/
theorem roundI32_ne_reserved (hany : any ≠ 0x80000000#32) : roundI32 any x ≠ 0x80000000#32 := by
  cases h : roundI32Domain x with
  | false => rwa [roundI32_of_not_domain h]
  | true =>
    intro hr
    have hle := roundI32_abs_le (any := any) h
    rw [hr] at hle
    exact absurd hle (by decide)

end

/-- A word other than the reserved duty is within the range of a signed duty (30_encoding.md R76). -/
theorem toInt_range_of_ne_reserved {d : Word} (h : d ≠ 0x80000000#32) :
    -(2 ^ 31 - 1) ≤ d.toInt ∧ d.toInt ≤ 2 ^ 31 - 1 := by
  have hlo := BitVec.le_toInt d
  have hhi := BitVec.toInt_lt (x := d)
  have hne : d.toInt ≠ (0x80000000#32).toInt := fun e => h (BitVec.eq_of_toInt_eq e)
  have hres : (0x80000000#32).toInt = -2 ^ 31 := by decide
  omega

/-- Settles O36: a result in the domain is the rounded magnitude with the sign of the value, and a free
voltage command is not the reserved duty. -/
theorem roundI32IsNearestTiesAway : Obligations.RoundI32IsNearestTiesAway := by
  intro any x
  refine ⟨roundI32Domain_iff x, fun h => ⟨?nearest, fun htie => ?away, roundI32_abs_le h⟩,
    roundI32_of_not_domain, fun n => toInt_range_of_ne_reserved (freeVcmd_ok n)⟩
  case nearest =>
    rw [roundI32_distance h]
    exact roundHalfUp_nearest _
  case away =>
    rw [roundI32_distance h] at htie
    rw [abs_mul, roundI32_abs h, ← f32Mag_cast]
    exact_mod_cast lt_roundHalfUp_of_tie htie

/-! ### TICK and SETACCEL (43_speed_controller.md R171, R172) -/

/-- The divisor of the increment is the pattern of 100.0. -/
theorem f32OfInt_ctrlHz : f32OfInt ctrlHz = 0x42C80000#32 := by decide

/-- The voltage command of a tick is one that SETSPEED accepts. -/
theorem motionAfterTick_vcmd_ne_reserved (c : Config) (n : Nat) (m : Motion) :
    (motionAfterTick c n m).vcmd ≠ 0x80000000#32 :=
  roundI32_ne_reserved (freeVcmd_ok (n + 4))

/-- The new speed, with the divisor as its pattern. -/
theorem motionAfterTick_speed (c : Config) (n : Nat) (m : Motion) :
    (motionAfterTick c n m).speed =
      f32Add (freeNaN (n + 1)) m.speed (f32Div (freeNaN n) m.accel 0x42C80000#32) := by
  rw [← f32OfInt_ctrlHz]
  rfl

/-- TICK is SETSPEED of the voltage command with the new motion registers in place. -/
theorem exec_tick_eq_setspeed (s : State) :
    exec .tick s =
      exec (.setspeed (motionAfterTick s.cfg s.draws s.mot).vcmd)
        { s with mot := motionAfterTick s.cfg s.draws s.mot, draws := s.draws + 5 } :=
  (exec_setspeed_of_ok (motionAfterTick_vcmd_ne_reserved _ _ _) _).symm

/-- Settles O34: the motion registers are those of `motionAfterTick`, and SETSPEED, which follows, leaves
them and every register but the commutation engine's and the driver's. -/
theorem tickIntegratesAndCommands : Obligations.TickIntegratesAndCommands :=
  ⟨rfl, fun s => ⟨freeNaN s.draws, freeNaN (s.draws + 1), freeNaN (s.draws + 2),
    freeNaN (s.draws + 3), freeVcmd (s.draws + 4), motionAfterTick s.cfg s.draws s.mot, _,
    freeNaN_isNaN _, freeNaN_isNaN _, freeNaN_isNaN _, freeNaN_isNaN _, freeVcmd_ok _, rfl,
    motionAfterTick_speed .., rfl, exec_tick_eq_setspeed s, exec_tick s, setSpeed_mot ..,
    setSpeed_enc .., setSpeed_obs .., setSpeed_cfg .., setSpeed_started .., setSpeed_requests ..,
    setSpeed_result ..⟩⟩

/-- Settles O14: the word carries the pattern whole, and `storeAccel` writes one register. -/
theorem setaccelStoresThePattern : Obligations.SetaccelStoresThePattern :=
  fun a s => ⟨rfl, exec_setaccel a s⟩

end Sys2Proof.Machine
end

section
/-! SUPPORT. The environment agents: the measured speed, which never uses a free NaN, the wire payload
of a pattern, and what OBSERVE and RXFRAME do. -/

namespace Sys2Proof.Machine

/-! ### The measured speed (44_environment_agents.md R191) -/

/-- Factors bounded by powers of two, `2 ^ i` and `2 ^ j`, far from overflow: their product is finite,
is bounded by a power of two again, and uses no NaN. -/
theorem f32Mul_of_le_two_pow {a b : Word} {i j : Nat} (ha : f32IsFinite a = true)
    (hb : f32IsFinite b = true) (hi : f32Mag a ≤ 2 ^ i * 2 ^ 149) (hj : f32Mag b ≤ 2 ^ j * 2 ^ 149)
    (hij : i + j ≤ 127) (nan : Word) :
    (∀ n, f32Mul n a b = f32Mul nan a b) ∧ f32IsFinite (f32Mul nan a b) = true ∧
    f32Mag (f32Mul nan a b) ≤ 2 ^ (i + j + 1) * 2 ^ 149 := by
  have hprod : f32Mag a * f32Mag b ≤ 2 ^ (i + j) * 2 ^ 149 * 2 ^ 149 :=
    calc f32Mag a * f32Mag b ≤ 2 ^ i * 2 ^ 149 * (2 ^ j * 2 ^ 149) := Nat.mul_le_mul hi hj
      _ = 2 ^ (i + j) * 2 ^ 149 * 2 ^ 149 := by ring
  have hlt : 2 ^ (i + j) * 2 ^ 149 < (2 ^ 25 - 1) * 2 ^ 252 :=
    calc 2 ^ (i + j) * 2 ^ 149 ≤ 2 ^ 127 * 2 ^ 149 :=
          Nat.mul_le_mul_right _ (Nat.pow_le_pow_right (by decide) hij)
      _ < (2 ^ 25 - 1) * 2 ^ 252 := by norm_num
  obtain ⟨hindep, hfin, hle⟩ := f32Mul_of_le ha hb _ hprod hlt nan
  exact ⟨hindep, hfin, hle.trans_eq (by ring)⟩

/-- A finite value divided by a finite value that is not zero uses no NaN. -/
theorem f32Div_nan_irrel {a b : Word} (ha : f32IsFinite a = true) (hb : f32IsFinite b = true)
    (hz : f32IsZero b = false) (n m : Word) : f32Div n a b = f32Div m a b := by
  simp [f32Div, f32IsFinite_not ha, f32IsFinite_not hb, hz]

/-- A tick difference is at most 2^63 in magnitude, so its conversion is finite and at most 2^64. -/
theorem f32OfInt_toInt_le (delta : Position) :
    f32IsFinite (f32OfInt delta.toInt) = true ∧
    f32Mag (f32OfInt delta.toInt) ≤ 2 ^ 64 * 2 ^ 149 := by
  have hlo := BitVec.le_toInt delta
  have hhi := BitVec.toInt_lt (x := delta)
  exact f32OfInt_le _ (by omega)

/-- The second factor is the pattern of 20.0. -/
theorem f32OfInt_obsHz : f32OfInt obsHz = 0x41A00000#32 := by decide

/-- The divisor is the pattern of 48.0. -/
theorem f32OfInt_ticksPerRev : f32OfInt ticksPerRev = 0x42400000#32 := by decide

/-- The measured speed whatever the three NaNs are: both products stay finite, below 2^74, and the
divisor is not zero. -/
theorem measuredSpeed_eq (n : Nat) (delta : Position) (nan1 nan2 nan3 : Word) :
    measuredSpeed n delta =
      f32Div nan3 (f32Mul nan2 (f32Mul nan1 (f32OfInt delta.toInt) 0x40C90FDB#32) 0x41A00000#32)
        0x42400000#32 := by
  obtain ⟨hfin, hle⟩ := f32OfInt_toInt_le delta
  obtain ⟨hindep1, hfin1, hle1⟩ := f32Mul_of_le_two_pow (b := 0x40C90FDB#32) (j := 3) hfin
    (by decide) hle (by decide) (by decide) nan1
  obtain ⟨hindep2, hfin2, -⟩ := f32Mul_of_le_two_pow (b := 0x41A00000#32) (j := 5) hfin1
    (by decide) hle1 (by decide) (by decide) nan2
  rw [measuredSpeed, f32OfInt_obsHz, f32OfInt_ticksPerRev, twoPi, hindep1, hindep2]
  exact f32Div_nan_irrel hfin2 (by decide) (by decide) _ _

/-! ### The wire payload (30_encoding.md R90) -/

/-- A pattern sent and received in one byte order is the pattern. Big-endian is little-endian with the
bytes reversed at both ends. -/
@[simp] theorem wordOfPayload_payloadOf (be : Bool) (b : Word) :
    wordOfPayload be (payloadOf be b) = b := by
  cases be with
  | false => exact argOfPayload_payloadOfArg b
  | true => exact argOfPayload_payloadOfArg b

theorem wordOfPayload_little (p : Payload) :
    wordOfPayload false p = p.p3 ++ p.p2 ++ p.p1 ++ p.p0 := rfl

theorem wordOfPayload_big (p : Payload) :
    wordOfPayload true p = p.p0 ++ p.p1 ++ p.p2 ++ p.p3 := rfl

/-! ### OBSERVE and RXFRAME (44_environment_agents.md R191, R193, R194) -/

/-- OBSERVE writes the observer's registers and returns the frame with the new speed. -/
theorem exec_observe (s : State) :
    exec .observe s =
      .next { s with
        obs := { prev := s.enc.pos, speed := measuredSpeed s.draws (s.enc.pos - s.obs.prev) }
        draws := s.draws + 3
        result := some (.frame (telemetryFrame s.cfg
          (measuredSpeed s.draws (s.enc.pos - s.obs.prev)))) } := rfl

/-- Settles O45: the speed is `measuredSpeed`, which uses no NaN, and the payload is read back in the
byte order it was sent in. -/
theorem observeMeasuresAndReturnsTheFrame : Obligations.ObserveMeasuresAndReturnsTheFrame := by
  refine ⟨rfl, fun nan1 nan2 nan3 s => ?_⟩
  intro delta speed
  have hspeed : measuredSpeed s.draws (s.enc.pos - s.obs.prev) = speed :=
    measuredSpeed_eq _ _ nan1 nan2 nan3
  refine ⟨payloadOf s.cfg.wireBigEndian speed, ?run, fun hbe => ?little, fun hbe => ?big⟩
  case run =>
    rw [exec_observe, hspeed]
    rfl
  case little => rw [hbe, ← wordOfPayload_little, wordOfPayload_payloadOf]
  case big => rw [hbe, ← wordOfPayload_big, wordOfPayload_payloadOf]

/-- A frame of four bytes is SETACCEL of the pattern they stand for. -/
theorem exec_rxframe_eq_setaccel (p : Payload) (s : State) :
    exec (.rxframe 4#4 p) s = exec (.setaccel (wordOfPayload s.cfg.wireBigEndian p)) s := by
  rw [exec_rxframe_of_len rfl, exec_setaccel]

/-- Every frame is served, and at most the setpoint changes. -/
theorem exec_rxframe_frame (len : BitVec 4) (p : Payload) (s : State) :
    ∃ t, exec (.rxframe len p) s = .next t ∧
      t = { s with mot := { s.mot with accel := t.mot.accel } } := by
  by_cases h : len = 4#4
  · exact ⟨_, exec_rxframe_of_len h p s, rfl⟩
  · exact ⟨_, exec_rxframe_drop h p s, rfl⟩

/-- Settles O46: the two cases are the two equations of RXFRAME, by the length of the frame. -/
theorem rxframeStoresFourBytesOrNothing : Obligations.RxframeStoresFourBytesOrNothing := by
  intro len p s
  refine ⟨rfl, fun h => exec_rxframe_drop h p s, ?stored, exec_rxframe_frame len p s⟩
  case stored =>
    rintro rfl
    exact exec_rxframe_eq_setaccel p s

end Sys2Proof.Machine
end

section
/-! SUPPORT. Start-up: what RESET does, read off the state after reset. -/

namespace Sys2Proof.Machine

/-- 10_state.md R42, 70_reset_and_hazards.md R241: RESET leaves the state after reset under the same
parameters; of the state before it keeps the model's own fields but `started` (log 11, log 12). -/
theorem exec_reset (s : State) :
    exec .reset s = .next { State.resetWith s.cfg with
      draws := s.draws, requests := s.requests, emitted := s.emitted, result := s.result } := rfl

/-- Settles O49: the word is a constant, and the registers written out are those of `State.resetWith`. -/
theorem resetWritesEveryRegister : Obligations.ResetWritesEveryRegister :=
  ⟨rfl, exec_reset⟩

end Sys2Proof.Machine
end

section
/-! SUPPORT. The decoder row by row: the word of each operation code, and when a row answers an operation
and when it refuses. -/

namespace Sys2Proof

/-! ### The rows of the two tables (30_encoding.md R80, R85) -/

section
variable (aux : BitVec 4) (arg : Word)

@[simp] theorem decode_reset : decode (wordQ 0x0#4 aux arg) = decodePlain aux arg .reset := by
  simp [decode, decodeQ, wordQ]

@[simp] theorem decode_sample : decode (wordQ 0x1#4 aux arg) = decodeVector aux arg sampleOfPins := by
  simp [decode, decodeQ, wordQ]

@[simp] theorem decode_edge : decode (wordQ 0x2#4 aux arg) = decodeVector aux arg .edge := by
  simp [decode, decodeQ, wordQ]

@[simp] theorem decode_commutate : decode (wordQ 0x3#4 aux arg) = decodeVector aux arg .commutate := by
  simp [decode, decodeQ, wordQ]

@[simp] theorem decode_setspeed : decode (wordQ 0x4#4 aux arg) = decodeSetspeed aux arg := by
  simp [decode, decodeQ, wordQ]

@[simp] theorem decode_tick : decode (wordQ 0x5#4 aux arg) = decodePlain aux arg .tick := by
  simp [decode, decodeQ, wordQ]

@[simp] theorem decode_setaccel : decode (wordQ 0x6#4 aux arg) = decodeArg aux arg .setaccel := by
  simp [decode, decodeQ, wordQ]

@[simp] theorem decode_getpos : decode (wordQ 0x7#4 aux arg) = decodePlain aux arg .getpos := by
  simp [decode, decodeQ, wordQ]

@[simp] theorem decode_getdir : decode (wordQ 0x8#4 aux arg) = decodePlain aux arg .getdir := by
  simp [decode, decodeQ, wordQ]

@[simp] theorem decode_geterr : decode (wordQ 0x9#4 aux arg) = decodePlain aux arg .geterr := by
  simp [decode, decodeQ, wordQ]

@[simp] theorem decode_reseterr : decode (wordQ 0xA#4 aux arg) = decodePlain aux arg .reseterr := by
  simp [decode, decodeQ, wordQ]

@[simp] theorem decode_observe : decode (wordQ 0xB#4 aux arg) = decodePlain aux arg .observe := by
  simp [decode, decodeQ, wordQ]

@[simp] theorem decode_rxframe : decode (wordQ 0xC#4 aux arg) = decodeRxframe aux arg := by
  simp [decode, decodeQ, wordQ]

end

section
variable (ch : BitVec 2) (val : Word)

@[simp] theorem decode_lock : decode (wordP 0#2 ch val) = decodePortPlain ch val .lock := by
  simp [decode, decodeP, wordP]

@[simp] theorem decode_unlock : decode (wordP 1#2 ch val) = decodePortPlain ch val .unlock := by
  simp [decode, decodeP, wordP]

@[simp] theorem decode_cfg : decode (wordP 2#2 ch val) = decodeCfg ch val := by
  simp [decode, decodeP, wordP]

@[simp] theorem decode_duty : decode (wordP 3#2 ch val) = decodeDuty ch val := by
  simp [decode, decodeP, wordP]

end

/-! ### When a row answers an operation -/

section
variable {aux : BitVec 4} {arg : Word} {i : Instr}

theorem decodePlain_eq_instr {j : Instr} (h : decodePlain aux arg j = .instr i) :
    aux = 0#4 ∧ arg = 0#32 ∧ i = j := by
  unfold decodePlain at h
  split at h
  · rename_i hz
    exact ⟨hz.1, hz.2, by simpa using h.symm⟩
  · simp at h

theorem decodeVector_eq_instr {f : BitVec 3 → Instr} (h : decodeVector aux arg f = .instr i) :
    ∃ v, aux = 0#4 ∧ arg = argOfVector v ∧ i = f v := by
  unfold decodeVector at h
  split at h
  · rename_i hz
    exact ⟨_, hz.1, (argOfVector_eta hz.2).symm, by simpa using h.symm⟩
  · simp at h

theorem decodeArg_eq_instr {f : Word → Instr} (h : decodeArg aux arg f = .instr i) :
    aux = 0#4 ∧ i = f arg := by
  unfold decodeArg at h
  split at h
  · exact ⟨‹_›, by simpa using h.symm⟩
  · simp at h

theorem decodeSetspeed_eq_instr (h : decodeSetspeed aux arg = .instr i) :
    aux = 0#4 ∧ signedDutyOk arg = true ∧ i = .setspeed arg := by
  unfold decodeSetspeed at h
  split at h
  · split at h
    · exact ⟨‹_›, ‹_›, by simpa using h.symm⟩
    · simp at h
  · simp at h

theorem decodeRxframe_eq_instr (h : decodeRxframe aux arg = .instr i) :
    (payloadOfArg arg).zeroBeyond aux = true ∧ i = .rxframe aux (payloadOfArg arg) := by
  unfold decodeRxframe at h
  split at h
  · exact ⟨‹_›, by simpa using h.symm⟩
  · simp at h

end

section
variable {ch : BitVec 2} {val : Word} {i : Instr}

theorem decodePortPlain_eq_instr {j : Instr} (h : decodePortPlain ch val j = .instr i) :
    ch = 0#2 ∧ val = 0#32 ∧ i = j := by
  unfold decodePortPlain at h
  split at h
  · rename_i hz
    exact ⟨hz.1, hz.2, by simpa using h.symm⟩
  · simp at h

theorem decodeCfg_eq_instr (h : decodeCfg ch val = .instr i) :
    ∃ m, ch = 0#2 ∧ val = argOfVector m ∧ i = .cfg m := by
  unfold decodeCfg at h
  split at h
  · rename_i hz
    exact ⟨_, hz.1, (argOfVector_eta hz.2).symm, by simpa using h.symm⟩
  · simp at h

/-- A channel is read from its number and from no other (20_memory.md R50). -/
theorem channelOf_eq_some_iff : ∀ (ch : BitVec 2) (c : Channel),
    channelOf ch = some c ↔ ch = c.number := by
  rintro ch (_ | _ | _) <;> revert ch <;> decide

theorem decodeDuty_eq_instr (h : decodeDuty ch val = .instr i) :
    ∃ c : Channel, ch = c.number ∧ i = .duty c val := by
  unfold decodeDuty at h
  split at h
  · rename_i c hc
    exact ⟨c, (channelOf_eq_some_iff ch c).mp hc, by simpa using h.symm⟩
  · simp at h

end

/-! ### The operands in the forms the encoder gives them -/

@[simp] theorem decodePlain_zero (i : Instr) : decodePlain 0#4 0#32 i = .instr i := rfl

@[simp] theorem decodeVector_argOfVector (v : BitVec 3) (f : BitVec 3 → Instr) :
    decodeVector 0#4 (argOfVector v) f = .instr (f v) := by
  simp [decodeVector]

@[simp] theorem decodeArg_zero (arg : Word) (f : Word → Instr) :
    decodeArg 0#4 arg f = .instr (f arg) := rfl

@[simp] theorem sampleOfPins_hallVector (h1 h2 h3 : Bool) :
    sampleOfPins (Machine.hallVector h1 h2 h3) = .sample h1 h2 h3 := by
  simp [sampleOfPins]

@[simp] theorem decodePortPlain_zero (i : Instr) : decodePortPlain 0#2 0#32 i = .instr i := rfl

@[simp] theorem decodeCfg_argOfVector (m : OutputMask) :
    decodeCfg 0#2 (argOfVector m) = .instr (.cfg m) := by
  simp [decodeCfg]

@[simp] theorem decodeDuty_number (c : Channel) (val : Word) :
    decodeDuty c.number val = .instr (.duty c val) := by
  cases c <;> rfl

/-- Settles O1: each row of the decoder reads the operands in the form the encoder's row gives them. -/
theorem decodeOfEncodeIsTheOperation : Obligations.DecodeOfEncodeIsTheOperation := by
  intro i hwf
  cases i with
  | setspeed d =>
    have hok : signedDutyOk d = true := hwf
    simp [encode, decodeSetspeed, hok]
  | rxframe len p =>
    have hz : p.zeroBeyond len = true := hwf
    simp [encode, decodeRxframe, hz]
  | sample h1 h2 h3 => simp [encode, Machine.argOfPins_eq_argOfVector]
  | reset | edge | commutate | tick | setaccel | getpos | getdir | geterr | reseterr | observe
  | lock | unlock | cfg | duty => simp [encode]

/-! ### The round trip from the word -/

/-- The thirteen operation codes of format Q, and the three without a meaning (30_encoding.md R80). -/
theorem opcode_cases : ∀ op : BitVec 4,
    op = 0x0#4 ∨ op = 0x1#4 ∨ op = 0x2#4 ∨ op = 0x3#4 ∨ op = 0x4#4 ∨ op = 0x5#4 ∨ op = 0x6#4 ∨
    op = 0x7#4 ∨ op = 0x8#4 ∨ op = 0x9#4 ∨ op = 0xA#4 ∨ op = 0xB#4 ∨ op = 0xC#4 ∨
    13 ≤ op.toNat := by decide

/-- The four operation codes of format P (30_encoding.md R85). -/
theorem driverCode_cases : ∀ dop : BitVec 2,
    dop = 0#2 ∨ dop = 1#2 ∨ dop = 2#2 ∨ dop = 3#2 := by decide

@[simp] theorem decode_undefined {op : BitVec 4} (h : 13 ≤ op.toNat) (aux : BitVec 4) (arg : Word) :
    decode (wordQ op aux arg) = .refuse .reservedWord := by
  have hop : op = 0xD#4 ∨ op = 0xE#4 ∨ op = 0xF#4 := by
    revert op
    decide
  rcases hop with rfl | rfl | rfl
  · simp [decode, decodeQ, wordQ]
  · simp [decode, decodeQ, wordQ]
  · simp [decode, decodeQ, wordQ]

theorem exists_wordQ (w : BitVec 40) : ∃ op aux arg, Request.q w = wordQ op aux arg :=
  ⟨_, _, _, congrArg Request.q (fieldsQ_eta w).symm⟩

theorem exists_wordP (w : BitVec 36) : ∃ dop ch val, Request.p w = wordP dop ch val :=
  ⟨_, _, _, congrArg Request.p (fieldsP_eta w).symm⟩

/-- The pin levels read from a vector make up that vector (30_encoding.md R70). -/
theorem hallVector_getLsbD : ∀ v : BitVec 3,
    Machine.hallVector (v.getLsbD 0) (v.getLsbD 1) (v.getLsbD 2) = v := by decide

theorem encode_sampleOfPins (v : BitVec 3) :
    encode (sampleOfPins v) = wordQ 0x1#4 0#4 (argOfVector v) := by
  rw [sampleOfPins, encode, Machine.argOfPins_eq_argOfVector, hallVector_getLsbD]

/-- An operation without operands is decoded from its one word. -/
theorem encode_of_decodePlain {op aux : BitVec 4} {arg : Word} {i j : Instr}
    (hj : encode j = wordQ op 0#4 0#32) (hwf : j.wf = true) (h : decodePlain aux arg j = .instr i) :
    encode i = wordQ op aux arg ∧ i.wf = true := by
  obtain ⟨rfl, rfl, rfl⟩ := decodePlain_eq_instr h
  exact ⟨hj, hwf⟩

/-- An operation with a vector for its operand is decoded from the word with that vector. -/
theorem encode_of_decodeVector {op aux : BitVec 4} {arg : Word} {i : Instr} {f : BitVec 3 → Instr}
    (hf : ∀ v, encode (f v) = wordQ op 0#4 (argOfVector v)) (hwf : ∀ v, (f v).wf = true)
    (h : decodeVector aux arg f = .instr i) : encode i = wordQ op aux arg ∧ i.wf = true := by
  obtain ⟨v, rfl, rfl, rfl⟩ := decodeVector_eq_instr h
  exact ⟨hf v, hwf v⟩

theorem encode_of_decode_wordQ {op aux : BitVec 4} {arg : Word} {i : Instr}
    (h : decode (wordQ op aux arg) = .instr i) : encode i = wordQ op aux arg ∧ i.wf = true := by
  rcases opcode_cases op with rfl | rfl | rfl | rfl | rfl | rfl | rfl | rfl | rfl | rfl | rfl | rfl |
    rfl | hop
  · exact encode_of_decodePlain rfl rfl (decode_reset aux arg ▸ h)
  · exact encode_of_decodeVector encode_sampleOfPins (fun _ => rfl) (decode_sample aux arg ▸ h)
  · exact encode_of_decodeVector (fun _ => rfl) (fun _ => rfl) (decode_edge aux arg ▸ h)
  · exact encode_of_decodeVector (fun _ => rfl) (fun _ => rfl) (decode_commutate aux arg ▸ h)
  · obtain ⟨rfl, hok, rfl⟩ := decodeSetspeed_eq_instr (decode_setspeed aux arg ▸ h)
    exact ⟨rfl, hok⟩
  · exact encode_of_decodePlain rfl rfl (decode_tick aux arg ▸ h)
  · obtain ⟨rfl, rfl⟩ := decodeArg_eq_instr (decode_setaccel aux arg ▸ h)
    exact ⟨rfl, rfl⟩
  · exact encode_of_decodePlain rfl rfl (decode_getpos aux arg ▸ h)
  · exact encode_of_decodePlain rfl rfl (decode_getdir aux arg ▸ h)
  · exact encode_of_decodePlain rfl rfl (decode_geterr aux arg ▸ h)
  · exact encode_of_decodePlain rfl rfl (decode_reseterr aux arg ▸ h)
  · exact encode_of_decodePlain rfl rfl (decode_observe aux arg ▸ h)
  · obtain ⟨hz, rfl⟩ := decodeRxframe_eq_instr (decode_rxframe aux arg ▸ h)
    exact ⟨by rw [encode, argOfPayload_payloadOfArg], hz⟩
  · simp [hop] at h

theorem encode_of_decode_wordP {dop ch : BitVec 2} {val : Word} {i : Instr}
    (h : decode (wordP dop ch val) = .instr i) : encode i = wordP dop ch val ∧ i.wf = true := by
  rcases driverCode_cases dop with rfl | rfl | rfl | rfl
  · obtain ⟨rfl, rfl, rfl⟩ := decodePortPlain_eq_instr (decode_lock ch val ▸ h)
    exact ⟨rfl, rfl⟩
  · obtain ⟨rfl, rfl, rfl⟩ := decodePortPlain_eq_instr (decode_unlock ch val ▸ h)
    exact ⟨rfl, rfl⟩
  · obtain ⟨m, rfl, rfl, rfl⟩ := decodeCfg_eq_instr (decode_cfg ch val ▸ h)
    exact ⟨rfl, rfl⟩
  · obtain ⟨c, rfl, rfl⟩ := decodeDuty_eq_instr (decode_duty ch val ▸ h)
    exact ⟨rfl, rfl⟩

/-- Settles O2: a row answers only from operands that the encoder's row writes, so its word is the word
decoded. -/
theorem encodeOfDecodeIsTheWord : Obligations.EncodeOfDecodeIsTheWord := by
  intro r i h
  cases r with
  | q w =>
    obtain ⟨op, aux, arg, hw⟩ := exists_wordQ w
    rw [hw] at h ⊢
    exact encode_of_decode_wordQ h
  | p w =>
    obtain ⟨dop, ch, val, hw⟩ := exists_wordP w
    rw [hw] at h ⊢
    exact encode_of_decode_wordP h

/-! ### Reserved words (30_encoding.md R93, R94) -/

section
variable {aux : BitVec 4} {arg : Word}

theorem decodePlain_refuse (h : aux.toNat ≠ 0 ∨ arg.toNat ≠ 0) (i : Instr) :
    decodePlain aux arg i = .refuse .reservedWord := by
  refine if_neg ?_
  rintro ⟨rfl, rfl⟩
  simp at h

theorem extract_high_ne_zero (h : 8 ≤ arg.toNat) : arg.extractLsb' 3 29 ≠ 0#29 := by
  intro he
  have hz := congrArg BitVec.toNat he
  have := arg.isLt
  rw [toNat_extract] at hz
  simp at hz
  omega

theorem decodeVector_refuse (h : aux.toNat ≠ 0 ∨ 8 ≤ arg.toNat) (f : BitVec 3 → Instr) :
    decodeVector aux arg f = .refuse .reservedWord := by
  refine if_neg ?_
  rintro ⟨rfl, hz⟩
  exact extract_high_ne_zero (h.resolve_left (by simp)) hz

theorem decodeArg_refuse (h : aux.toNat ≠ 0) (f : Word → Instr) :
    decodeArg aux arg f = .refuse .reservedWord :=
  if_neg fun hz => h (by rw [hz]; rfl)

/-- With a non-zero `aux` the reason is R93's, whatever the duty is (log 19). -/
theorem decodeSetspeed_refuse (h : aux.toNat ≠ 0) :
    decodeSetspeed aux arg = .refuse .reservedWord :=
  if_neg fun hz => h (by rw [hz]; rfl)

/-- The payload bytes from the declared length on are zero when the operand is below the power of 256 of
that length (30_encoding.md R80). -/
theorem lt_of_zeroBeyond (h : (payloadOfArg arg).zeroBeyond aux = true) (hlen : aux.toNat < 4) :
    arg.toNat < 2 ^ (8 * aux.toNat) := by
  have harg := arg.isLt
  simp only [Payload.zeroBeyond, payloadOfArg, Bool.and_eq_true, Bool.or_eq_true, decide_eq_true_eq,
    beq_iff_eq, ← BitVec.toNat_inj, toNat_extract, BitVec.toNat_ofNat] at h
  generalize aux.toNat = n at *
  interval_cases n <;> omega

theorem decodeRxframe_refuse (hlen : aux.toNat < 4) (h : 2 ^ (8 * aux.toNat) ≤ arg.toNat) :
    decodeRxframe aux arg = .refuse .reservedWord :=
  if_neg fun hz => (lt_of_zeroBeyond hz hlen).not_ge h

end

section
variable {ch : BitVec 2} {val : Word}

theorem decodePortPlain_refuse (h : ch.toNat ≠ 0 ∨ val.toNat ≠ 0) (i : Instr) :
    decodePortPlain ch val i = .refuse .reservedWord := by
  refine if_neg ?_
  rintro ⟨rfl, rfl⟩
  simp at h

theorem decodeCfg_refuse (h : ch.toNat ≠ 0 ∨ 8 ≤ val.toNat) :
    decodeCfg ch val = .refuse .reservedWord := by
  refine if_neg ?_
  rintro ⟨rfl, hz⟩
  exact extract_high_ne_zero (h.resolve_left (by simp)) hz

end

theorem decode_reserved_wordQ {op aux : BitVec 4} {arg : Word}
    (h : Machine.ReservedWord (wordQ op aux arg)) :
    decode (wordQ op aux arg) = .refuse .reservedWord := by
  simp only [Machine.ReservedWord, wordQ, fieldsQ_op, fieldsQ_aux, fieldsQ_arg] at h
  rcases opcode_cases op with rfl | rfl | rfl | rfl | rfl | rfl | rfl | rfl | rfl | rfl | rfl | rfl |
    rfl | hop
  · exact (decode_reset aux arg).trans (decodePlain_refuse (by simpa using h) _)
  · exact (decode_sample aux arg).trans (decodeVector_refuse (by simpa using h) _)
  · exact (decode_edge aux arg).trans (decodeVector_refuse (by simpa using h) _)
  · exact (decode_commutate aux arg).trans (decodeVector_refuse (by simpa using h) _)
  · exact (decode_setspeed aux arg).trans (decodeSetspeed_refuse (by simpa using h))
  · exact (decode_tick aux arg).trans (decodePlain_refuse (by simpa using h) _)
  · exact (decode_setaccel aux arg).trans (decodeArg_refuse (by simpa using h) _)
  · exact (decode_getpos aux arg).trans (decodePlain_refuse (by simpa using h) _)
  · exact (decode_getdir aux arg).trans (decodePlain_refuse (by simpa using h) _)
  · exact (decode_geterr aux arg).trans (decodePlain_refuse (by simpa using h) _)
  · exact (decode_reseterr aux arg).trans (decodePlain_refuse (by simpa using h) _)
  · exact (decode_observe aux arg).trans (decodePlain_refuse (by simpa using h) _)
  · obtain ⟨hlen, hz⟩ : aux.toNat < 4 ∧ 2 ^ (8 * aux.toNat) ≤ arg.toNat := by simpa using h
    exact (decode_rxframe aux arg).trans (decodeRxframe_refuse hlen hz)
  · exact decode_undefined hop aux arg

theorem decode_reserved_wordP {dop ch : BitVec 2} {val : Word}
    (h : Machine.ReservedWord (wordP dop ch val)) :
    decode (wordP dop ch val) = .refuse .reservedWord := by
  simp only [Machine.ReservedWord, wordP, fieldsP_dop, fieldsP_ch, fieldsP_val] at h
  rcases driverCode_cases dop with rfl | rfl | rfl | rfl
  · exact (decode_lock ch val).trans (decodePortPlain_refuse (by simpa using h) _)
  · exact (decode_unlock ch val).trans (decodePortPlain_refuse (by simpa using h) _)
  · exact (decode_cfg ch val).trans (decodeCfg_refuse (by simpa using h))
  · simp at h

/-- The operand fields of a reserved word are those its row refuses. -/
theorem decode_of_reservedWord {w : Request} (h : Machine.ReservedWord w) :
    decode w = .refuse .reservedWord := by
  cases w with
  | q w =>
    obtain ⟨op, aux, arg, hw⟩ := exists_wordQ w
    rw [hw] at h ⊢
    exact decode_reserved_wordQ h
  | p w =>
    obtain ⟨dop, ch, val, hw⟩ := exists_wordP w
    rw [hw] at h ⊢
    exact decode_reserved_wordP h

/-- Settles O3: each word, read by its table row. -/
theorem wordsOfTheTablesDecode : Obligations.WordsOfTheTablesDecode := by
  unfold Obligations.WordsOfTheTablesDecode
  decide

end Sys2Proof
end
section
/-! SUPPORT. The step: what it answers for each decoding, what an operation leaves of the list, and a
list of operations. -/

namespace Sys2Proof.Machine

/-! ### The step by the first word presented (20_memory.md R56, R57) -/

section
variable {s : State} {w : Request} {rest : List Request} {i : Instr}

theorem step_of_nil (h : s.requests = []) : step s = .next s := by
  simp [step, h]

theorem step_of_refuse {e : DecodeError} (hw : s.requests = w :: rest) (hd : decode w = .refuse e) :
    step s = .refused (refusalOf e) := by
  simp [step, hw, hd]

theorem step_of_instr (hw : s.requests = w :: rest) (hd : decode w = .instr i)
    (hi : s.started = true ∨ i = .reset) : step s = exec i (accept rest s) := by
  simp [step, hw, hd, mayIssue, hi]

theorem step_of_not_started (hw : s.requests = w :: rest) (hd : decode w = .instr i)
    (hs : s.started = false) (hi : i ≠ .reset) : step s = .fault .unwrittenRegister := by
  simp [step, hw, hd, mayIssue, hs, hi]

end

/-- Settles O4: the decoder's refusal is the step's. -/
theorem reservedWordsAreRefused : Obligations.ReservedWordsAreRefused :=
  fun _ h => ⟨decode_of_reservedWord h, fun _ _ hw => step_of_refuse hw (decode_of_reservedWord h)⟩

/-- Settles O5: DUTY has no channel 3, and SETSPEED tests the duty in the decoder and in the operation. -/
theorem reservedOperandsAreRefused : Obligations.ReservedOperandsAreRefused := by
  refine ⟨fun val s rest hw => ?channel, fun s rest hw => ?duty, exec_setspeed_reserved⟩
  case channel => exact step_of_refuse hw (decode_duty 3#2 val)
  case duty => exact step_of_refuse hw (decode_setspeed 0#4 0x80000000#32)

/-- Settles O6: the accepted state is the one written out. -/
theorem stepRunsTheDecodedOperation : Obligations.StepRunsTheDecodedOperation :=
  fun _ _ _ _ hw hd hi => step_of_instr hw hd hi

/-- Settles O7: the first branch of the step. -/
theorem stepWithNothingPresentedIsIdle : Obligations.StepWithNothingPresentedIsIdle :=
  fun _ h => step_of_nil h

/-- Settles O8: before the first RESET the step issues RESET alone. -/
theorem operationBeforeResetFaults : Obligations.OperationBeforeResetFaults :=
  fun _ _ _ _ hw hd hs hi => step_of_not_started hw hd hs hi

end Sys2Proof.Machine
end

section
/-! SUPPORT. What an operation can do when it completes, said once, and the statements about every
operation that follow from it: who writes what, and the invariants of 10_state.md R41. -/

namespace Sys2Proof.Machine

/-! ### What an operation leaves -/

/-- What an operation that only returns a result returns (30_encoding.md R81); `none` for the others. -/
def queryResult (e : Encoder) : Instr → Option Result
  | .sample h1 h2 h3 => some (.vector (hallVector h1 h2 h3))
  | .getpos => some (.position e.pos)
  | .getdir => some (.direction (dirBit e.dir))
  | .geterr => some (.error (BitVec.ofBool e.err))
  | _ => none

theorem exec_query {i : Instr} {s : State} {r : Result} (h : queryResult s.enc i = some r) :
    exec i s = .next (s.answer r) := by
  cases i with
  | sample | getpos | getdir | geterr =>
    obtain rfl := Option.some.inj h
    rfl
  | _ => cases h

/-- The ways in which an operation completes: `Completes s i t` says that `t` is left by `i` at `s`. The
operations that write the same registers stand under one case. -/
inductive Completes (s : State) : Instr → State → Prop
  | reset :
    Completes s .reset { State.resetWith s.cfg with
      draws := s.draws, requests := s.requests, emitted := s.emitted, result := s.result }
  | duplicate : Completes s (.edge s.enc.prev) s
  | dropped {len : BitVec 4} {p : Payload} (hlen : len ≠ 4#4) : Completes s (.rxframe len p) s
  | query {i : Instr} {r : Result} (hi : queryResult s.enc i = some r) : Completes s i (s.answer r)
  | edge {cur : HallVector} (hcur : cur ≠ s.enc.prev) :
    Completes s (.edge cur) (commutate cur (s.setEnc (encoderAfterEdge cur s.enc)))
  | reseterr : Completes s .reseterr (s.setEnc { s.enc with err := false })
  | commutate (v : HallVector) : Completes s (.commutate v) (commutate v s)
  | setspeed {d : Word} (hd : d ≠ 0x80000000#32) : Completes s (.setspeed d) (setSpeed d s)
  | tick :
    Completes s .tick (setSpeed (motionAfterTick s.cfg s.draws s.mot).vcmd
      ((s.setMot (motionAfterTick s.cfg s.draws s.mot)).draw 5))
  | setaccel (a : Word) : Completes s (.setaccel a) (storeAccel a s)
  | received (p : Payload) :
    Completes s (.rxframe 4#4 p) (storeAccel (wordOfPayload s.cfg.wireBigEndian p) s)
  | observe {o : Observer} {r : Result} :
    Completes s .observe { s with obs := o, draws := s.draws + 3, result := some r }
  | port (o : PortOp) : Completes s o.instr (s.setDrv (portApply s.cfg.pwmMax o s.drv))

theorem exec_portInstr (o : PortOp) (s : State) :
    exec o.instr s = .next (s.setDrv (portApply s.cfg.pwmMax o s.drv)) := by
  cases o <;> rfl

/-- Every operation but the reserved SETSPEED completes, in one of these ways. -/
theorem exec_completes (i : Instr) (s : State) (hi : i ≠ .setspeed 0x80000000#32) :
    ∃ t, exec i s = .next t ∧ Completes s i t := by
  cases i with
  | reset => exact ⟨_, exec_reset s, .reset⟩
  | sample h1 h2 h3 => exact ⟨_, exec_sample h1 h2 h3 s, .query rfl⟩
  | edge cur =>
    by_cases hcur : cur = s.enc.prev
    · subst hcur
      exact ⟨_, exec_edge_same s, .duplicate⟩
    · exact ⟨_, exec_edge_of_ne hcur, .edge hcur⟩
  | commutate v => exact ⟨_, exec_commutate v s, .commutate v⟩
  | setspeed d =>
    have hd : d ≠ 0x80000000#32 := fun e => hi (by rw [e])
    exact ⟨_, exec_setspeed_of_ok hd s, .setspeed hd⟩
  | tick => exact ⟨_, exec_tick s, .tick⟩
  | setaccel a => exact ⟨_, exec_setaccel a s, .setaccel a⟩
  | getpos => exact ⟨_, exec_getpos s, .query rfl⟩
  | getdir => exact ⟨_, exec_getdir s, .query rfl⟩
  | geterr => exact ⟨_, exec_geterr s, .query rfl⟩
  | reseterr => exact ⟨_, exec_reseterr s, .reseterr⟩
  | observe => exact ⟨_, exec_observe s, .observe⟩
  | rxframe len p =>
    by_cases hlen : len = 4#4
    · subst hlen
      exact ⟨_, exec_rxframe_of_len rfl p s, .received p⟩
    · exact ⟨_, exec_rxframe_drop hlen p s, .dropped hlen⟩
  | lock => exact ⟨_, exec_lock s, .port .lock⟩
  | unlock => exact ⟨_, exec_unlock s, .port .unlock⟩
  | cfg mask => exact ⟨_, exec_cfg mask s, .port (.cfg mask)⟩
  | duty ch value => exact ⟨_, exec_duty ch value s, .port (.duty ch value)⟩

section
variable {i : Instr} {s t : State}

/-- The inversion every statement below starts from. -/
theorem completes_of_exec (h : exec i s = .next t) : Completes s i t := by
  have hi : i ≠ .setspeed 0x80000000#32 := by
    rintro rfl
    simp [exec_setspeed_reserved] at h
  obtain ⟨u, hu, hc⟩ := exec_completes i s hi
  obtain rfl : u = t := by simpa [hu] using h
  exact hc

/-! ### The fields that are no registers -/

theorem exec_requests (h : exec i s = .next t) : t.requests = s.requests := by
  cases completes_of_exec h <;> simp [storeAccel]

theorem exec_started (h : exec i s = .next t) (hs : s.started = true) : t.started = true := by
  cases completes_of_exec h with
  | reset => rfl
  | _ => simpa [storeAccel] using hs

theorem exec_cfg_field (h : exec i s = .next t) : t.cfg = s.cfg := by
  cases completes_of_exec h <;> simp [storeAccel, State.resetWith]


/-! ### The registers, group by group -/

/-- RESET apart, a processed edge writes the encoder, RESETERR its flag, and nothing else any of it. -/
theorem exec_enc_cases (h : exec i s = .next t) (hreset : i ≠ .reset) :
    (∃ cur, i = .edge cur ∧ cur ≠ s.enc.prev ∧ t.enc = encoderAfterEdge cur s.enc) ∨
    (i = .reseterr ∧ t.enc = { s.enc with err := false }) ∨
    ((∀ cur, i = .edge cur → cur = s.enc.prev) ∧ t.enc = s.enc) := by
  cases completes_of_exec h with
  | reset => exact absurd rfl hreset
  | edge hcur => exact .inl ⟨_, rfl, hcur, by simp⟩
  | reseterr => exact .inr (.inl ⟨rfl, rfl⟩)
  | duplicate => exact .inr (.inr ⟨by simp, rfl⟩)
  | query hi => exact .inr (.inr ⟨(by rintro cur rfl; cases hi), rfl⟩)
  | port o => exact .inr (.inr ⟨by cases o <;> simp [PortOp.instr], rfl⟩)
  | dropped | commutate | setspeed | tick | setaccel | received | observe =>
    exact .inr (.inr ⟨by simp, by simp [storeAccel]⟩)

/-- RESET apart, TICK writes the motion registers, SETACCEL and RXFRAME with four bytes the setpoint. -/
theorem exec_mot_cases (h : exec i s = .next t) (hreset : i ≠ .reset) :
    (i = .tick ∧ t.mot = motionAfterTick s.cfg s.draws s.mot) ∨
    (((∃ a, i = .setaccel a) ∨ ∃ p, i = .rxframe 4#4 p) ∧
      t.mot.speed = s.mot.speed ∧ t.mot.vcmd = s.mot.vcmd) ∨
    t.mot = s.mot := by
  cases completes_of_exec h with
  | reset => exact absurd rfl hreset
  | tick => exact .inl ⟨rfl, by simp⟩
  | setaccel a => exact .inr (.inl ⟨.inl ⟨a, rfl⟩, rfl, rfl⟩)
  | received p => exact .inr (.inl ⟨.inr ⟨p, rfl⟩, rfl, rfl⟩)
  | duplicate | dropped | query | edge | reseterr | commutate | setspeed | observe | port =>
    exact .inr (.inr (by simp))

/-- RESET apart, TICK and SETSPEED write the commutation registers. -/
theorem exec_com_cases (h : exec i s = .next t) (hreset : i ≠ .reset) :
    (i = .tick ∨ ∃ d, i = .setspeed d) ∨ t.com = s.com := by
  cases completes_of_exec h with
  | reset => exact absurd rfl hreset
  | tick => exact .inl (.inl rfl)
  | setspeed => exact .inl (.inr ⟨_, rfl⟩)
  | duplicate | dropped | query | edge | reseterr | commutate | setaccel | received | observe | port =>
    exact .inr (by simp [storeAccel])

@[simp] theorem isDriverWord_instr (o : PortOp) : isDriverWord o.instr = true := by
  cases o <;> rfl

/-- RESET apart, the driver words and the four operations that commutate write the driver registers, and
nothing else does or sends a driver word. -/
theorem exec_drv_cases (h : exec i s = .next t) (hreset : i ≠ .reset) :
    (isDriverWord i = true ∨ i = .tick ∨ (∃ d, i = .setspeed d) ∨ (∃ v, i = .commutate v) ∨
      ∃ v, i = .edge v) ∨
    (t.drv = s.drv ∧ t.emitted = s.emitted) := by
  cases completes_of_exec h with
  | reset => exact absurd rfl hreset
  | port | tick | setspeed | commutate | edge => simp
  | duplicate | dropped | query | reseterr | setaccel | received | observe => exact .inr ⟨rfl, rfl⟩

/-- RESET apart, OBSERVE writes the observer's registers. -/
theorem exec_obs_cases (h : exec i s = .next t) (hreset : i ≠ .reset) :
    i = .observe ∨ t.obs = s.obs := by
  cases completes_of_exec h with
  | reset => exact absurd rfl hreset
  | observe => exact .inl rfl
  | duplicate | dropped | query | edge | reseterr | commutate | setspeed | tick | setaccel | received
  | port => exact .inr (by simp [storeAccel])

end

/-- Settles O20: the driver registers' writers, with those of the statement taken out. -/
theorem nothingElseWritesThePort : Obligations.NothingElseWritesThePort := by
  intro i s t h hword hreset htick hedge hcom hspeed
  rcases exec_drv_cases h hreset with (hw | hi | ⟨d, hi⟩ | ⟨v, hi⟩ | ⟨v, hi⟩) | hframe
  · simp [hword] at hw
  · exact absurd hi htick
  · exact absurd hi (hspeed d)
  · exact absurd hi (hcom v)
  · exact absurd hi (hedge v)
  · exact hframe

theorem encoderAfterEdge_pos_cases (cur : HallVector) (e : Encoder) :
    (encoderAfterEdge cur e).pos = e.pos + 1#64 ∨ (encoderAfterEdge cur e).pos = e.pos - 1#64 := by
  rw [encoderAfterEdge_pos]
  split
  · exact .inl rfl
  · exact .inr rfl

/-- Settles O22: the three ways the encoder registers can be left. -/
theorem onlyAProcessedEdgeMovesThePosition : Obligations.OnlyAProcessedEdgeMovesThePosition := by
  intro i s t h hreset
  rcases exec_enc_cases h hreset with ⟨cur, rfl, hcur, he⟩ | ⟨rfl, he⟩ | ⟨hi, he⟩
  · refine ⟨fun cur' hi _ => ?moved, fun hi => absurd (hi cur rfl) hcur⟩
    obtain rfl : cur = cur' := by simpa using hi
    rw [he]
    exact ⟨rfl, encoderAfterEdge_pos_cases cur s.enc⟩
  · exact ⟨by simp, fun _ => by simp [he]⟩
  · exact ⟨fun cur hc hne => absurd (hi cur hc) hne, fun _ => by simp [he]⟩

/-- The direction and the flag after a processed edge, by the class of the step (R123, step 3). -/
theorem encoderAfterEdge_flags (cur : HallVector) (e : Encoder) :
    ((stepKey e.prev cur ∈ cwSteps ∨ stepKey e.prev cur ∈ ccwSteps) ∧
      (encoderAfterEdge cur e).err = e.err) ∨
    (stepKey e.prev cur ∉ cwSteps ∧ stepKey e.prev cur ∉ ccwSteps ∧
      (encoderAfterEdge cur e).dir = e.dir ∧ (encoderAfterEdge cur e).err = true) := by
  by_cases hcw : stepKey e.prev cur ∈ cwSteps
  · exact .inl ⟨.inl hcw, by rw [encoderAfterEdge_of_cw hcw]⟩
  by_cases hccw : stepKey e.prev cur ∈ ccwSteps
  · exact .inl ⟨.inr hccw, by rw [encoderAfterEdge_of_ccw hccw]⟩
  · rw [encoderAfterEdge_of_invalid hcw hccw]
    exact .inr ⟨hcw, hccw, rfl, rfl⟩

/-- Settles O23: of the three ways the encoder registers can be left, a processed edge changes the
direction in a valid step and sets the flag in any other, and RESETERR clears the flag. -/
theorem directionAndErrorChangeOnlyAsStated : Obligations.DirectionAndErrorChangeOnlyAsStated := by
  intro i s t h hreset
  rcases exec_enc_cases h hreset with ⟨cur, rfl, hcur, he⟩ | ⟨rfl, he⟩ | ⟨-, he⟩
  · rw [he]
    rcases encoderAfterEdge_flags cur s.enc with ⟨hvalid, herr⟩ | ⟨hcw, hccw, hdir, herr⟩
    · exact ⟨fun _ => ⟨cur, rfl, hvalid⟩, by simp_all, by simp_all⟩
    · exact ⟨by simp [hdir], fun _ _ => ⟨cur, rfl, hcur, hcw, hccw⟩, by simp [herr]⟩
  · simp [he]
  · simp_all

/-- Settles O43: the writers of each group of registers. -/
theorem everyRegisterHasItsWriters : Obligations.EveryRegisterHasItsWriters := by
  intro i s t h
  refine ⟨exec_cfg_field h, fun hreset => ⟨?position, ?error, ?setpoint, ?speed, ?command, ?driver,
    (exec_obs_cases h hreset).resolve_right⟩⟩
  case position =>
    rcases exec_enc_cases h hreset with ⟨cur, hi, -⟩ | ⟨-, he⟩ | ⟨-, he⟩
    · exact fun _ => ⟨cur, hi⟩
    · simp [he]
    · simp [he]
  case error =>
    rcases exec_enc_cases h hreset with ⟨cur, hi, -⟩ | ⟨hi, -⟩ | ⟨-, he⟩
    · exact fun _ => .inr ⟨cur, hi⟩
    · exact fun _ => .inl hi
    · simp [he]
  case setpoint =>
    rcases exec_mot_cases h hreset with ⟨-, hm⟩ | ⟨hi, -⟩ | hm
    · simp [hm, motionAfterTick]
    · exact fun _ => hi
    · simp [hm]
  case speed =>
    rcases exec_mot_cases h hreset with ⟨hi, -⟩ | ⟨-, hspeed, hvcmd⟩ | hm
    · exact fun _ => hi
    · simp [hspeed, hvcmd]
    · simp [hm]
  case command => exact (exec_com_cases h hreset).resolve_right
  case driver =>
    rcases exec_drv_cases h hreset with hi | ⟨hd, -⟩
    · exact fun _ => hi
    · simp [hd]

/-! ### The invariants of 10_state.md R41 -/

/-- Settles O54: every operation that commutates, and RESET, clears the lock, and no other but a driver
word writes it. -/
theorem requestsLeaveTheDriverUnlocked : Obligations.RequestsLeaveTheDriverUnlocked := by
  intro i s t hword hlock h
  cases completes_of_exec h with
  | reset => rfl
  | edge | commutate | setspeed | tick => simp
  | port o => simp at hword
  | duplicate | dropped | query | reseterr | setaccel | received | observe => exact hlock

/-- SETSPEED leaves the command registers following the duty (42_commutation_engine.md R155). -/
theorem comFollowsVcmd_setSpeed {s : State} (h : s.mot.vcmd ≠ 0x80000000#32) :
    ComFollowsVcmd (setSpeed s.mot.vcmd s) := by
  simp [ComFollowsVcmd, dutyMagnitude_toNat _ h, dutyDirection_cw_iff]

theorem comFollowsVcmd_tick {s t : State} (h : exec .tick s = .next t) : ComFollowsVcmd t := by
  obtain rfl : _ = t := by simpa [exec_tick] using h
  exact comFollowsVcmd_setSpeed (s := (s.setMot _).draw 5) (motionAfterTick_vcmd_ne_reserved _ _ _)

/-- Settles O55: TICK passes the voltage command to SETSPEED, RESET clears both sides, and no other
operation but SETSPEED writes either. -/
theorem commutationFollowsTheVoltageCommand : Obligations.CommutationFollowsTheVoltageCommand := by
  refine ⟨fun s t => comFollowsVcmd_tick, fun i s t hspeed hs h => ?kept⟩
  by_cases hreset : i = .reset
  · subst hreset
    obtain rfl : _ = t := by simpa [exec_reset] using h
    simp [ComFollowsVcmd, State.resetWith]
  by_cases htick : i = .tick
  · exact comFollowsVcmd_tick (htick ▸ h)
  have hcom : t.com = s.com := by
    rcases exec_com_cases h hreset with (hi | ⟨d, hi⟩) | hcom
    · exact absurd hi htick
    · exact absurd hi (hspeed d)
    · exact hcom
  have hvcmd : t.mot.vcmd = s.mot.vcmd := by
    rcases exec_mot_cases h hreset with ⟨hi, -⟩ | ⟨-, -, hvcmd⟩ | hm
    · exact absurd hi htick
    · exact hvcmd
    · rw [hm]
  rwa [ComFollowsVcmd, hcom, hvcmd]

theorem dutiesBounded_resetWith (c : Config) : DutiesBounded (State.resetWith c) := by
  intro ch
  cases ch <;> simp [State.resetWith, dutyGet]

/-- A driver word keeps the duties within `PWM_MAX` (40_phase_driver_port.md R102, R103). -/
theorem dutiesBounded_portApply {s : State} (hs : DutiesBounded s) (o : PortOp) :
    DutiesBounded (s.setDrv (portApply s.cfg.pwmMax o s.drv)) := by
  cases o with
  | lock => exact hs
  | cfg m => exact hs
  | unlock => exact fun c => ⟨(hs c).1, (hs c).1⟩
  | duty ch v =>
    have hset : ∀ d : Duties, (∀ c, (dutyGet d c).toNat ≤ s.cfg.pwmMax) → ∀ c,
        (dutyGet (dutySet d ch (clampDuty s.cfg.pwmMax v)) c).toNat ≤ s.cfg.pwmMax := by
      intro d hd c
      rw [dutyGet_dutySet]
      split
      · exact clampDuty_le ..
      · exact hd c
    intro c
    refine ⟨hset _ (fun c => (hs c).1) c, ?_⟩
    cases hl : s.drv.locked with
    | true =>
      show (dutyGet (portDuty s.cfg.pwmMax ch v s.drv).dutyA c).toNat ≤ s.cfg.pwmMax
      rw [portDuty_dutyA_of_locked hl]
      exact (hs c).2
    | false =>
      show (dutyGet (portDuty s.cfg.pwmMax ch v s.drv).dutyA c).toNat ≤ s.cfg.pwmMax
      rw [portDuty_dutyA_of_unlocked hl]
      exact hset _ (fun c => (hs c).2) c

theorem dutiesBounded_commutate {s : State} (hs : DutiesBounded s) (v : HallVector) :
    DutiesBounded (commutate v s) := by
  intro c
  rw [commutate_cfg]
  exact commutate_duties (fun c => (hs c).1) c

theorem dutiesBounded_setSpeed {s : State} (hs : DutiesBounded s) (d : Word) :
    DutiesBounded (setSpeed d s) := by
  intro c
  rw [setSpeed_cfg]
  exact setSpeed_duties (fun c => (hs c).1) c

/-- Every operation keeps the duties within `PWM_MAX` (10_state.md R41 (d)). -/
theorem dutiesBounded_of_exec {i : Instr} {s t : State} (h : exec i s = .next t)
    (hs : DutiesBounded s) : DutiesBounded t := by
  cases completes_of_exec h with
  | reset => exact dutiesBounded_resetWith s.cfg
  | edge =>
    refine dutiesBounded_commutate ?_ _
    exact hs
  | commutate v => exact dutiesBounded_commutate hs v
  | setspeed => exact dutiesBounded_setSpeed hs _
  | tick =>
    refine dutiesBounded_setSpeed ?_ _
    exact hs
  | port o => exact dutiesBounded_portApply hs o
  | duplicate | dropped | query | reseterr | setaccel | received | observe => exact hs

/-- No operation leaves the reserved duty in the voltage command (10_state.md R27). -/
theorem vcmd_ne_reserved_of_exec {i : Instr} {s t : State} (h : exec i s = .next t)
    (hs : s.mot.vcmd ≠ 0x80000000#32) : t.mot.vcmd ≠ 0x80000000#32 := by
  by_cases hreset : i = .reset
  · subst hreset
    obtain rfl : _ = t := by simpa [exec_reset] using h
    simp [State.resetWith]
  rcases exec_mot_cases h hreset with ⟨-, hm⟩ | ⟨-, -, hvcmd⟩ | hm
  · rw [hm]
    exact motionAfterTick_vcmd_ne_reserved _ _ _
  · rwa [hvcmd]
  · rwa [hm]

theorem blockInv_of_exec {i : Instr} {s t : State} (h : exec i s = .next t) (hs : BlockInv s) :
    BlockInv t where
  cfgWf := by
    rw [exec_cfg_field h]
    exact hs.cfgWf
  duties := dutiesBounded_of_exec h hs.duties
  vcmd := vcmd_ne_reserved_of_exec h hs.vcmd

/-- Settles O52: a step is idle or one operation, and every operation keeps each part of the invariant. -/
theorem everyStepKeepsTheInvariant : Obligations.EveryStepKeepsTheInvariant := by
  intro s t hs h
  rcases step_cases h with ⟨-, rfl⟩ | ⟨w, rest, i, -, -, -, h⟩
  · exact hs
  · exact blockInv_of_exec h ⟨hs.cfgWf, hs.duties, hs.vcmd⟩

theorem blockInv_resetWith {c : Config} (h : c.wf = true) : BlockInv (State.resetWith c) where
  cfgWf := h
  duties := dutiesBounded_resetWith c
  vcmd := by simp [State.resetWith]

/-- Settles O53: the registers after reset are all zero, and the board's configuration is well formed. -/
theorem theResetStateMeetsTheInvariant : Obligations.TheResetStateMeetsTheInvariant :=
  ⟨fun _ => blockInv_resetWith, blockInv_resetWith Config.board.wf⟩

/-! ### The list of requests -/

/-- Settles O9: a word stands for a well-formed operation, and every one of those completes. -/
theorem everyPresentedOperationCompletes : Obligations.EveryPresentedOperationCompletes := by
  intro s w rest i hw hd hs
  have hwf : i.wf = true := (encodeOfDecodeIsTheWord w i hd).2
  have hi : i ≠ .setspeed 0x80000000#32 := by
    rintro rfl
    simp [Instr.wf, signedDutyOk] at hwf
  obtain ⟨t, ht, -⟩ := exec_completes i (accept rest s) hi
  exact ⟨t, (step_of_instr hw hd (.inl hs)).trans ht, exec_started ht hs, exec_requests ht⟩

/-- A step takes the first word off the list, if there is one. -/
theorem step_requests {s t : State} (h : step s = .next t) : t.requests = s.requests.drop 1 := by
  rcases step_cases h with ⟨hnil, rfl⟩ | ⟨w, rest, i, hw, -, -, h⟩
  · simp [hnil]
  · rw [exec_requests h, hw]
    rfl

theorem run_succ_of_next {k : Nat} {s t : State}
    (h : Host.Core.run Sys2Proof.core (k + 1) s = .next t) :
    ∃ u, step s = .next u ∧ Host.Core.run Sys2Proof.core k u = .next t := by
  cases hs : step s with
  | next u => exact ⟨u, rfl, by simpa [Host.Core.run, Sys2Proof.core, hs] using h⟩
  | fault r => simp [Host.Core.run, Sys2Proof.core, hs] at h
  | refused r => simp [Host.Core.run, Sys2Proof.core, hs] at h

/-- Settles O10: by induction on the number of steps. -/
theorem wordsAreServedInListOrder : Obligations.WordsAreServedInListOrder := by
  intro k
  induction k with
  | zero =>
    intro s t h
    obtain rfl : s = t := Host.Outcome.next.inj h
    rfl
  | succ k ih =>
    intro s t h
    obtain ⟨u, hu, hrun⟩ := run_succ_of_next h
    rw [ih u t hrun, step_requests hu, List.drop_drop, Nat.add_comm]

end Sys2Proof.Machine
end

section
/-! SUPPORT. What no operation reads: two runs that differ in the error flag or in the observer's
registers alone. -/

namespace Sys2Proof.Machine

/-! ### The commutation calls do not read what they do not write -/

theorem commutate_setEnc (v : HallVector) (s : State) (e : Encoder) :
    commutate v (s.setEnc e) = (commutate v s).setEnc e := by
  simp only [commutate, State.setEnc_cfg, State.setEnc_com]
  split <;> rfl

theorem commutate_setObs (v : HallVector) (s : State) (o : Observer) :
    commutate v (s.setObs o) = (commutate v s).setObs o := by
  simp only [commutate, State.setObs_cfg, State.setObs_com]
  split <;> rfl

/-- The state with the error flag written. -/
def State.setErr (s : State) (b : Bool) : State := s.setEnc { s.enc with err := b }

theorem commutate_setErr (v : HallVector) (s : State) (b : Bool) :
    commutate v (s.setErr b) = (commutate v s).setErr b := by
  rw [State.setErr, commutate_setEnc, State.setErr, commutate_enc]

theorem setSpeed_setErr (d : Word) (s : State) (b : Bool) :
    setSpeed d (s.setErr b) = (setSpeed d s).setErr b :=
  commutate_setErr s.enc.prev (s.setCom _) b

theorem setSpeed_setObs (d : Word) (s : State) (o : Observer) :
    setSpeed d (s.setObs o) = (setSpeed d s).setObs o :=
  commutate_setObs s.enc.prev (s.setCom _) o

/-! ### The error flag (10_state.md R24) -/

/-- GETERR alone returns the flag. -/
theorem queryResult_setErr (e : Encoder) (b : Bool) {i : Instr} (hi : i ≠ .geterr) :
    queryResult { e with err := b } i = queryResult e i := by
  cases i with
  | geterr => exact absurd rfl hi
  | _ => rfl

/-- Two runs of an operation other than GETERR, from states that differ in the flag, end in states that
differ in the flag alone. -/
theorem exec_setErr {i : Instr} {s t : State} (b : Bool) (hi : i ≠ .geterr)
    (h : exec i s = .next t) : ∃ b', exec i (s.setErr b) = .next (t.setErr b') := by
  cases completes_of_exec h with
  | reset | reseterr => exact ⟨false, rfl⟩
  | @edge cur hcur =>
    refine ⟨errAfter (classify (transitionCode s.enc.prev cur)) b,
      (exec_edge_of_ne (s := s.setErr b) hcur).trans ?_⟩
    exact congrArg Host.Outcome.next (commutate_setErr cur (s.setEnc (encoderAfterEdge cur s.enc)) _)
  | query hq => exact ⟨b, exec_query ((queryResult_setErr s.enc b hi).trans hq)⟩
  | duplicate => exact ⟨b, exec_edge_same (s.setErr b)⟩
  | dropped hlen => exact ⟨b, exec_rxframe_drop hlen _ _⟩
  | commutate v => exact ⟨b, congrArg Host.Outcome.next (commutate_setErr v s b)⟩
  | setspeed hd =>
    exact ⟨b, (exec_setspeed_of_ok hd _).trans (congrArg _ (setSpeed_setErr _ s b))⟩
  | tick =>
    exact ⟨b, (exec_tick _).trans (congrArg _ (setSpeed_setErr _
      ((s.setMot (motionAfterTick s.cfg s.draws s.mot)).draw 5) b))⟩
  | port o => exact ⟨b, exec_portInstr o (s.setErr b)⟩
  | setaccel | received => exact ⟨b, rfl⟩
  | observe =>
    cases h
    exact ⟨b, rfl⟩

/-- Settles O25: GETERR differs in its result, every other operation in the flag alone. -/
theorem noOperationReadsTheErrorFlag : Obligations.NoOperationReadsTheErrorFlag := by
  intro i s t b h
  by_cases hi : i = .geterr
  · subst hi
    cases h
    exact ⟨_, rfl, rfl, fun hne => absurd rfl hne⟩
  · obtain ⟨b', hb'⟩ := exec_setErr b hi h
    exact ⟨_, hb', rfl, fun _ => rfl⟩

/-! ### The observer's registers (44_environment_agents.md R196) -/

/-- Settles O44: RESET writes the observer's registers, OBSERVE apart every other operation carries them
along. -/
theorem theObserverIsNotReadByTheCore : Obligations.TheObserverIsNotReadByTheCore := by
  intro i s t o hi h
  cases completes_of_exec h with
  | observe => exact absurd rfl hi
  | reset => exact ⟨_, exec_reset _, rfl⟩
  | duplicate => exact ⟨_, exec_edge_same (s.setObs o), rfl⟩
  | dropped hlen => exact ⟨_, exec_rxframe_drop hlen _ _, rfl⟩
  | query hq => exact ⟨_, exec_query (s := s.setObs o) hq, rfl⟩
  | edge hcur =>
    exact ⟨_, (exec_edge_of_ne (s := s.setObs o) hcur).trans
      (congrArg _ (commutate_setObs _ (s.setEnc _) o)), rfl⟩
  | reseterr => exact ⟨_, exec_reseterr _, rfl⟩
  | commutate v =>
    exact ⟨_, (exec_commutate v _).trans (congrArg _ (commutate_setObs v s o)), rfl⟩
  | setspeed hd =>
    exact ⟨_, (exec_setspeed_of_ok hd _).trans (congrArg _ (setSpeed_setObs _ s o)), rfl⟩
  | tick =>
    exact ⟨_, (exec_tick _).trans (congrArg _ (setSpeed_setObs _ ((s.setMot _).draw 5) o)), rfl⟩
  | setaccel a => exact ⟨_, exec_setaccel a _, rfl⟩
  | received p => exact ⟨_, exec_rxframe_of_len rfl p _, rfl⟩
  | port q => exact ⟨_, exec_portInstr q (s.setObs o), rfl⟩

end Sys2Proof.Machine
end

section
/-! SUPPORT. Lists of operations: an induction over the list, and the frames and handlers that issue one
operation or none. -/

namespace Sys2Proof.Machine

section
variable {i : Instr} {is : List Instr} {s t : State}

theorem execAll_cons_of_next (h : exec i s = .next t) : execAll (i :: is) s = execAll is t := by
  simp [execAll, h]

theorem execAll_singleton (i : Instr) (s : State) : execAll [i] s = exec i s := by
  unfold execAll
  cases exec i s <;> rfl

/-- A predicate, which may count the operations served, that every operation of the list keeps. -/
theorem execAll_induct {P : Nat → State → Prop} {k : Nat}
    (h : ∀ i ∈ is, ∀ k s, P k s → ∃ t, exec i s = .next t ∧ P (k + 1) t) (hs : P k s) :
    ∃ t, execAll is s = .next t ∧ P (k + is.length) t := by
  induction is generalizing k s with
  | nil => exact ⟨s, rfl, hs⟩
  | cons i is ih =>
    obtain ⟨t, ht, hPt⟩ := h i List.mem_cons_self k s hs
    obtain ⟨u, hu, hPu⟩ := ih (fun j hj => h j (List.mem_cons_of_mem i hj)) hPt
    refine ⟨u, (execAll_cons_of_next ht).trans hu, ?_⟩
    rwa [List.length_cons, Nat.add_comm is.length, ← Nat.add_assoc]

end

/-- Settles O26: SAMPLE returns the vector of the pins and writes nothing else, and EDGE takes it. -/
theorem hallirqIsEdgeWithTheSampledVector : Obligations.HallirqIsEdgeWithTheSampledVector := by
  intro h1 h2 h3 s
  refine ⟨hallVector h1 h2 h3, hallVector_getElem_zero .., hallVector_getElem_one ..,
    hallVector_getElem_two .., rfl, ?served⟩
  case served =>
    rw [serve, eventInstrs, execAll_cons_of_next (exec_sample h1 h2 h3 s), execAll_singleton]
    rfl

/-- Settles O47: a payload read in the byte order it was written in is the pattern, so the frame stores
it as SETACCEL does. -/
theorem payloadRoundTrips : Obligations.PayloadRoundTrips := by
  intro b s
  refine ⟨?little, ?big, ?frame⟩
  case little => rw [← wordOfPayload_little, wordOfPayload_payloadOf]
  case big => rw [← wordOfPayload_big, wordOfPayload_payloadOf]
  case frame => rw [pseudoRxaccel, exec_rxframe_eq_setaccel, wordOfPayload_payloadOf]

/-- Settles O48: the handler issues one operation or none, and RXFRAME drops other lengths. -/
theorem otherFramesLeaveNoTrace : Obligations.OtherFramesLeaveNoTrace := by
  intro ident len p s
  have hserve : serve (.frameIn ident len p) s =
      if ident = s.cfg.idSetAccel then exec (.rxframe len p) s else .next s := by
    rw [serve, eventInstrs]
    split
    · exact execAll_singleton _ _
    · rfl
  refine ⟨hserve, fun h => ?_⟩
  rw [hserve]
  split
  · rename_i hid
    exact exec_rxframe_drop (h.resolve_left (not_not_intro hid)) p s
  · rfl

/-- Settles O50: RESET leaves `State.resetWith`, the model's own fields apart. -/
theorem resetAgreesWithTheResetState : Obligations.ResetAgreesWithTheResetState := exec_reset

end Sys2Proof.Machine
end
section
/-! SUPPORT. Sequences of edges: what a run of valid steps counts, and the first edge after RESET. -/

namespace Sys2Proof.Machine

/-! ### Pairs of vectors (30_encoding.md R73, R74) -/

theorem stepKey_not_ccw_of_cw : ∀ prev cur : HallVector,
    stepKey prev cur ∈ cwSteps → stepKey prev cur ∉ ccwSteps := by decide

/-- A valid step changes the vector. -/
theorem ne_of_valid_step : ∀ prev cur : HallVector,
    stepKey prev cur ∈ cwSteps ∨ stepKey prev cur ∈ ccwSteps → cur ≠ prev := by decide

/-- No valid step starts from 000. -/
theorem stepKey_zero_invalid : ∀ cur : HallVector,
    stepKey 0#3 cur ∉ cwSteps ∧ stepKey 0#3 cur ∉ ccwSteps := by decide

/-- The change of position in one step, as `netTicks` counts it. -/
def stepTicks (prev cur : HallVector) : Int :=
  if stepKey prev cur ∈ ccwSteps then 1 else if stepKey prev cur ∈ cwSteps then -1 else 0

theorem netTicks_cons (prev v : HallVector) (vs : List HallVector) :
    netTicks prev (v :: vs) = stepTicks prev v + netTicks v vs := rfl

/-- A valid step moves the position by its tick and leaves the error flag (41_position_encoder.md R122,
R123). -/
theorem encoderAfterEdge_of_valid {cur : HallVector} {e : Encoder}
    (h : stepKey e.prev cur ∈ cwSteps ∨ stepKey e.prev cur ∈ ccwSteps) :
    (encoderAfterEdge cur e).pos = e.pos + BitVec.ofInt 64 (stepTicks e.prev cur) ∧
    (encoderAfterEdge cur e).err = e.err := by
  rcases h with hcw | hccw
  · have hn := stepKey_not_ccw_of_cw _ _ hcw
    simp [encoderAfterEdge_of_cw hcw, stepTicks, hcw, hn, BitVec.sub_eq_add_neg]
  · simp [encoderAfterEdge_of_ccw hccw, stepTicks, hccw]

/-- Settles O24: by induction on the sequence, each edge being one valid step. -/
theorem validSequencesCountTheirSteps : Obligations.ValidSequencesCountTheirSteps := by
  intro vs
  induction vs with
  | nil => exact fun s _ => ⟨s, rfl, rfl, by simp [netTicks]⟩
  | cons v vs ih =>
    rintro s ⟨hstep, hpath⟩
    obtain ⟨hpos, herr⟩ := encoderAfterEdge_of_valid hstep
    have hrun := exec_edge_of_ne (ne_of_valid_step _ _ hstep)
    have henc := commutate_enc v (s.setEnc (encoderAfterEdge v s.enc))
    rw [State.setEnc_enc] at henc
    obtain ⟨t, ht, hterr, htpos⟩ := ih (commutate v (s.setEnc (encoderAfterEdge v s.enc)))
      (by rwa [henc])
    refine ⟨t, (execAll_cons_of_next hrun).trans ht, ?err, ?pos⟩
    case err => rw [hterr, henc, herr]
    case pos =>
      rw [htpos, henc, hpos, encoderAfterEdge_prev, netTicks_cons, BitVec.ofInt_add, BitVec.add_assoc]

/-- Settles O51: no valid step starts from 000, so the first edge counts in the direction of the reset
state. -/
theorem firstEdgeAfterZeroHallResetIsInvalid : Obligations.FirstEdgeAfterZeroHallResetIsInvalid := by
  intro s cur hreset hcur
  obtain ⟨u, hu⟩ : ∃ u, exec .reset s = .next u ∧ u.enc = ⟨0#3, 0#64, .cw, false⟩ :=
    ⟨_, exec_reset s, by simp [State.resetWith, hreset]⟩
  obtain ⟨hrun, henc⟩ := hu
  obtain ⟨hcw, hccw⟩ := stepKey_zero_invalid cur
  have hne : cur ≠ u.enc.prev := by simpa [henc] using hcur
  refine ⟨_, (execAll_cons_of_next hrun).trans
    ((execAll_singleton _ _).trans (exec_edge_of_ne hne)), ?_⟩
  rw [commutate_enc, State.setEnc_enc, henc, encoderAfterEdge_of_invalid hcw hccw]
  rfl

end Sys2Proof.Machine
end
section
/-! SUPPORT. The phase-driver port under the lock and with equal copies, what the motor sees after a
commutation, and how many words it takes. -/

namespace Sys2Proof.Machine

/-! ### Under the lock, and with equal copies (40_phase_driver_port.md R100) -/

/-- The lock is set and the applied registers are those of `d₀`. -/
structure UnderLock (d₀ d : Driver) : Prop where
  locked : d.locked = true
  cfgA : d.cfgA = d₀.cfgA
  dutyA : d.dutyA = d₀.dutyA

/-- Unlocked, with each applied register equal to its shadow register. -/
structure CopiesEqual (d : Driver) : Prop where
  unlocked : d.locked = false
  cfg : d.cfgA = d.cfgS
  duty : d.dutyA = d.dutyS

section
variable {d₀ d : Driver} {o : PortOp}

theorem portApply_underLock (p : Nat) (h : UnderLock d₀ d) (ho : o ≠ .unlock) :
    UnderLock d₀ (portApply p o d) := by
  obtain ⟨hl, hc, hd⟩ := h
  cases o with
  | lock => exact ⟨rfl, hc, hd⟩
  | unlock => exact absurd rfl ho
  | cfg m => exact ⟨hl, (if_pos hl).trans hc, hd⟩
  | duty ch v => exact ⟨hl, hc, (portDuty_dutyA_of_locked hl).trans hd⟩

theorem portRun_underLock (p : Nat) {os : List PortOp} (h : UnderLock d₀ d) (hos : .unlock ∉ os) :
    UnderLock d₀ (portRun p os d) := by
  induction os generalizing d with
  | nil => exact h
  | cons o os ih =>
    rw [List.mem_cons, not_or] at hos
    obtain ⟨ho, hos⟩ := hos
    exact ih (portApply_underLock p h (Ne.symm ho)) hos

theorem portApply_copiesEqual (p : Nat) (h : CopiesEqual d) (hl : o ≠ .lock) :
    CopiesEqual (portApply p o d) := by
  obtain ⟨hu, hc, hd⟩ := h
  cases o with
  | lock => exact absurd rfl hl
  | unlock => exact ⟨rfl, rfl, rfl⟩
  | cfg m => exact ⟨hu, if_neg (by simp [hu]), hd⟩
  | duty ch v => exact ⟨hu, hc, (portDuty_dutyA_of_unlocked hu).trans (by rw [hd]; rfl)⟩

end

/-- A list of driver words keeps of the driver registers what each of its words keeps. -/
theorem execAll_port_keeps {Q : Driver → Prop} {is : List Instr} {s : State}
    (h : ∀ i ∈ is, ∃ o : PortOp, i = o.instr ∧ ∀ p d, Q d → Q (portApply p o d)) (hs : Q s.drv) :
    ∃ t, execAll is s = .next t ∧ Q t.drv := by
  refine execAll_induct (P := fun _ t => Q t.drv) (k := 0) (fun i hi _ t hQ => ?_) hs
  obtain ⟨o, rfl, ho⟩ := h i hi
  exact ⟨_, exec_portInstr o t, ho _ _ hQ⟩

/-- Settles O19: the words of the first part are not UNLOCK, and those of the second not LOCK. -/
theorem theLockDefersApplication : Obligations.TheLockDefersApplication := by
  refine fun is s => ⟨fun hlock his => ?locked, fun hlock hcfg hduty his => ?unlocked⟩
  case locked =>
    have hkeeps : ∀ i ∈ is, ∃ o : PortOp, i = o.instr ∧
        ∀ p d, UnderLock s.drv d → UnderLock s.drv (portApply p o d) := by
      intro i hi
      rcases his i hi with rfl | ⟨m, rfl⟩ | ⟨c, v, rfl⟩
      · exact ⟨.lock, rfl, fun p _ h => portApply_underLock p h (by simp)⟩
      · exact ⟨.cfg m, rfl, fun p _ h => portApply_underLock p h (by simp)⟩
      · exact ⟨.duty c v, rfl, fun p _ h => portApply_underLock p h (by simp)⟩
    obtain ⟨t, ht, hl, hc, hd⟩ := execAll_port_keeps hkeeps ⟨hlock, rfl, rfl⟩
    exact ⟨t, _, ht, exec_unlock t, hl, hc, hd, rfl, rfl⟩
  case unlocked =>
    have hkeeps : ∀ i ∈ is, ∃ o : PortOp, i = o.instr ∧
        ∀ p d, CopiesEqual d → CopiesEqual (portApply p o d) := by
      intro i hi
      rcases his i hi with ⟨m, rfl⟩ | ⟨c, v, rfl⟩
      · exact ⟨.cfg m, rfl, fun p _ h => portApply_copiesEqual p h (by simp)⟩
      · exact ⟨.duty c v, rfl, fun p _ h => portApply_copiesEqual p h (by simp)⟩
    obtain ⟨t, ht, -, hc, hd⟩ := execAll_port_keeps hkeeps ⟨hlock, hcfg, hduty⟩
    exact ⟨t, ht, hc, hd⟩

/-! ### The five words of a commutation (42_commutation_engine.md R153, R156) -/

/-- The words before the last: the first sets the lock and none is UNLOCK. -/
theorem take_commutationWords_underLock (p : Nat) (e : Entry) (mag : BitVec 31) (d : Driver) {k : Nat}
    (hk : k < 4) : UnderLock d (portRun p ((commutationWords e mag).take (k + 1)) d) := by
  have hwords : commutationWords e mag =
      .lock :: ([PortOp.cfg e.mask, .duty e.hi (mag.setWidth 32), .duty e.lo 0#32] ++ [.unlock]) := rfl
  rw [hwords, List.take_succ_cons, List.take_append_of_le_length (Nat.le_of_lt_succ hk), portRun_cons]
  refine portRun_underLock p ⟨rfl, rfl, rfl⟩ fun hmem => ?_
  simpa using List.mem_of_mem_take hmem

/-- Settles O32: the words before the last run under the lock. -/
theorem theAppliedTupleMovesOnce : Obligations.TheAppliedTupleMovesOnce := by
  intro v s h0 h7
  obtain ⟨e, -, hrun⟩ := commutate_of_valid s h0 h7
  refine ⟨_, commutationWords e s.com.mag, (exec_commutate v s).trans (congrArg _ hrun), rfl, rfl, rfl,
    fun k hk => ?_⟩
  cases k with
  | zero => exact ⟨rfl, rfl⟩
  | succ k =>
    obtain ⟨-, hc, hd⟩ := take_commutationWords_underLock s.cfg.pwmMax e s.com.mag s.drv
      (Nat.lt_of_succ_lt_succ hk)
    exact ⟨hc, hd⟩

/-- What the motor sees after the five words of a well-formed entry: the driver registers before them do
not matter (R153, R157). -/
theorem motorView_commutationWords {e : Entry} (he : e.wf = true) (p : Nat) (mag : BitVec 31)
    (d : Driver) (c : Channel) :
    motorView (portRun p (commutationWords e mag) d) c =
      if c = e.lo then some 0#32
      else if c = e.hi then some (clampDuty p (mag.setWidth 32)) else none := by
  rw [motorView, portRun_commutationWords_cfgA, portRun_commutationWords_dutyA,
    portRun_commutationWords_dutyS]
  by_cases hlo : c = e.lo
  · have hbit : e.mask &&& c.bit ≠ 0#3 := fun h => ((mask_bit_iff he c).mp h).2 hlo
    rw [if_neg hbit, if_pos hlo, if_pos hlo]
  by_cases hhi : c = e.hi
  · have hbit : e.mask &&& c.bit ≠ 0#3 := fun h => ((mask_bit_iff he c).mp h).1 hhi
    rw [if_neg hbit, if_neg hlo, if_pos hhi, if_neg hlo, if_pos hhi]
  · rw [if_pos ((mask_bit_iff he c).mpr ⟨hhi, hlo⟩), if_neg hlo, if_neg hhi]

theorem exists_third_channel : ∀ c e : Channel, c ≠ e → ∃ off, c ≠ off ∧ e ≠ off := by
  rintro (_ | _ | _) (_ | _ | _) hne
  exacts [absurd rfl hne, ⟨.ch2, by simp⟩, ⟨.ch1, by simp⟩, ⟨.ch2, by simp⟩, absurd rfl hne,
    ⟨.ch0, by simp⟩, ⟨.ch1, by simp⟩, ⟨.ch0, by simp⟩, absurd rfl hne]

/-- Settles O30: the two channels of the entry and the third. -/
theorem commutateSplitsTheDuty : Obligations.CommutateSplitsTheDuty := by
  intro v s ht h0 h7
  obtain ⟨e, he, hrun⟩ := commutate_of_valid s h0 h7
  have hwf := tableEntry_wf ht he
  obtain ⟨hne, -⟩ := (entry_wf_iff e).mp hwf
  obtain ⟨off, hhi, hlo⟩ := exists_third_channel e.hi e.lo hne
  refine ⟨_, e.hi, e.lo, off, clampDuty s.cfg.pwmMax (s.com.mag.setWidth 32),
    (exec_commutate v s).trans (congrArg _ hrun), hne, hhi, hlo, clampDuty_setWidth_toNat _ _,
    ?hi, ?lo, ?off⟩
  case hi => rw [send_drv, motorView_commutationWords hwf, if_neg hne, if_pos rfl]
  case lo => rw [send_drv, motorView_commutationWords hwf, if_pos rfl]
  case off => rw [send_drv, motorView_commutationWords hwf, if_neg hlo.symm, if_neg hhi.symm]

/-- Settles O31: both runs send the words of one entry. -/
theorem noStaleDutyIsApplied : Obligations.NoStaleDutyIsApplied := by
  intro v s d t u ht h0 h7 hs hd c
  obtain ⟨e, he, hrun⟩ := commutate_of_valid s h0 h7
  have hrun' : commutate v { s with drv := d } =
      send (commutationWords e s.com.mag) { s with drv := d } := commutate_of_entry he
  rw [exec_commutate, hrun] at hs
  rw [exec_commutate, hrun'] at hd
  cases hs
  cases hd
  have hwf := tableEntry_wf ht he
  rw [send_drv, send_drv, motorView_commutationWords hwf, motorView_commutationWords hwf]

/-- Settles O28: without an entry the driver registers are free values in their ranges. -/
theorem commutateOfAnInvalidVectorCompletes : Obligations.CommutateOfAnInvalidVectorCompletes := by
  intro v s hv
  have hrun := commutate_of_none ((tableEntry_none_iff s.cfg.table s.com.dir v).mpr hv)
  refine ⟨_, (exec_commutate v s).trans (congrArg _ hrun), rfl, fun c => ?_, rfl⟩
  cases c <;> exact ⟨freeDuty_le _ _, freeDuty_le _ _⟩

/-! ### How many words are sent (42_commutation_engine.md R158) -/

theorem commutate_emitted_length {v : HallVector} (s : State) (h0 : v ≠ 0#3) (h7 : v ≠ 7#3) :
    (commutate v s).emitted.length = s.emitted.length + 5 := by
  obtain ⟨e, -, hrun⟩ := commutate_of_valid s h0 h7
  rw [hrun, send_emitted, List.length_append]
  rfl

theorem setSpeed_emitted_length (d : Word) {s : State} (h0 : s.enc.prev ≠ 0#3)
    (h7 : s.enc.prev ≠ 7#3) : (setSpeed d s).emitted.length = s.emitted.length + 5 :=
  commutate_emitted_length (s.setCom _) h0 h7

/-- Settles O33: each of the three commutates once, with the stored vector or the new one. -/
theorem fiveWordsPerCommutation : Obligations.FiveWordsPerCommutation := by
  intro i s t h
  refine ⟨fun h0 h7 hi => ?command, fun cur hi hcur h0 h7 => ?processed, fun hi => ?duplicate⟩
  case command =>
    rcases hi with rfl | ⟨d, rfl⟩
    · rw [exec_tick] at h
      cases h
      exact setSpeed_emitted_length _ (s := (s.setMot _).draw 5) h0 h7
    · by_cases hd : d = 0x80000000#32
      · rw [hd, exec_setspeed_reserved] at h
        cases h
      · rw [exec_setspeed_of_ok hd] at h
        cases h
        exact setSpeed_emitted_length d h0 h7
  case processed =>
    rw [hi, exec_edge_of_ne hcur] at h
    cases h
    exact commutate_emitted_length _ h0 h7
  case duplicate =>
    rw [hi, exec_edge_same] at h
    cases h
    rfl

end Sys2Proof.Machine
end

section
/-! SUPPORT. binary32 over signed values: the nearest value of a signed quotient, and what an operation
does with zeros, infinities and NaNs (43_speed_controller.md R174). -/

namespace Sys2Proof.Machine

/-! ### The nearest value to a signed quotient -/

/-- `r` is a nearest binary32 to `x / den`, ties to even: no finite value is nearer, and another is as
near only when `r` is even. Distances are scaled by `den`. -/
def IsNearest (r : Word) (x den : Int) : Prop :=
  ∀ c : Word, f32IsFinite c = true →
    |f32Units r * den - x| ≤ |f32Units c * den - x| ∧
    (f32Units c ≠ f32Units r → |f32Units c * den - x| = |f32Units r * den - x| → r.toNat % 2 = 0)

/-- `r` is `x / den` narrowed to binary32: an infinity from the largest finite value and half its quantum
on, else a nearest value. -/
structure IsNarrowed (r : Word) (x : Int) (den : Nat) : Prop where
  finite_iff : f32IsFinite r = true ↔ |x| < (2 ^ 25 - 1) * 2 ^ 252 * den
  overflow : f32IsFinite r = false → f32IsInf r = true
  nearest : f32IsFinite r = true → IsNearest r x den

/-- The packed rounded magnitude is the narrowed quotient of that sign. -/
theorem isNarrowed_pack {neg : Bool} {num den : Nat} {x : Int} (hd : 0 < den)
    (hx : (if neg = true then -(num : Int) else num) = x) :
    IsNarrowed (f32Pack neg (f32RoundMag num den)) x den where
  finite_iff := by
    have habs : |x| = num := by
      rw [← hx]
      cases neg <;> simp
    rw [(f32Pack_round_facts neg num den hd).2.1, habs, overflow_cast]
    norm_cast
  overflow := (f32Pack_round_facts neg num den hd).2.2.1
  nearest := fun hf c _ => hx ▸ f32Pack_round_nearest neg num den hd c hf

theorem f32Neg_pack_round (neg : Bool) (num den : Nat) :
    f32Neg (f32Pack neg (f32RoundMag num den)) = neg :=
  f32Neg_pack (f32RoundMag_lt num den)

/-- A number from its sign and its magnitude. -/
theorem sign_natAbs (x : Int) :
    (if decide (x < 0) = true then -(x.natAbs : Int) else x.natAbs) = x := by
  simp only [decide_eq_true_eq]
  split <;> omega

/-! ### Values by their kind -/

theorem f32IsZero_iff (x : Word) : f32IsZero x = true ↔ x.toNat % 2 ^ 31 = 0 := by
  have := x.isLt
  unfold f32IsZero f32Exp f32Frac
  simp only [Bool.and_eq_true, beq_iff_eq]
  omega

theorem eq_zero_of_f32IsZero {x : Word} (h : f32IsZero x = true) : x = 0#32 ∨ x = 0x80000000#32 := by
  have hx := x.isLt
  have h0 := (f32IsZero_iff x).mp h
  simp only [← BitVec.toNat_inj, BitVec.toNat_ofNat]
  omega

theorem f32Mag_eq_zero_iff (x : Word) : f32Mag x = 0 ↔ f32IsZero x = true := by
  rw [f32IsZero_iff, f32Mag_eq]
  constructor
  · intro h
    by_contra hne
    have := patternMag_mono (show 1 ≤ x.toNat % 2 ^ 31 by omega)
    have h1 : patternMag 1 = 1 := by decide
    omega
  · intro h
    rw [h, patternMag_zero]

theorem f32RoundMag_zero (den : Nat) : f32RoundMag 0 den = 0 := by
  simp [f32RoundMag, f32Quantum, roundTiesToEven]

/-! ### Finite operands -/

section
variable {a b : Word} (nan : Word)

theorem f32Add_of_finite (ha : f32IsFinite a = true) (hb : f32IsFinite b = true)
    (h : f32Units a + f32Units b ≠ 0) :
    f32Add nan a b = f32Pack (decide (f32Units a + f32Units b < 0))
      (f32RoundMag (f32Units a + f32Units b).natAbs 1) := by
  simp [f32Add, f32IsFinite_not ha, f32IsFinite_not hb, h]

theorem f32Add_of_sum_zero (ha : f32IsFinite a = true) (hb : f32IsFinite b = true)
    (h : f32Units a + f32Units b = 0) :
    f32Add nan a b = f32Pack (f32Neg a && f32Neg b) 0 := by
  simp [f32Add, f32IsFinite_not ha, f32IsFinite_not hb, h]

theorem f32Mul_of_finite (ha : f32IsFinite a = true) (hb : f32IsFinite b = true) :
    f32Mul nan a b =
      f32Pack (f32Neg a != f32Neg b) (f32RoundMag (f32Mag a * f32Mag b) (2 ^ 149)) := by
  simp [f32Mul, f32IsFinite_not ha, f32IsFinite_not hb]

theorem f32Div_of_finite (ha : f32IsFinite a = true) (hb : f32IsFinite b = true)
    (hz : f32IsZero b = false) :
    f32Div nan a b =
      f32Pack (f32Neg a != f32Neg b) (f32RoundMag (f32Mag a * 2 ^ 149) (f32Mag b)) := by
  simp [f32Div, f32IsFinite_not ha, f32IsFinite_not hb, hz]

end

theorem isNarrowed_add (nan : Word) {a b : Word} (ha : f32IsFinite a = true)
    (hb : f32IsFinite b = true) : IsNarrowed (f32Add nan a b) (f32Units a + f32Units b) 1 := by
  by_cases h : f32Units a + f32Units b = 0
  · rw [f32Add_of_sum_zero nan ha hb h, h, ← f32RoundMag_zero 1]
    exact isNarrowed_pack (by decide) (by simp)
  · rw [f32Add_of_finite nan ha hb h]
    exact isNarrowed_pack (by decide) (sign_natAbs _)

/-- Settles O37: the sum is narrowed from the exact sum, whose quotient has the divisor 1. -/
theorem floatSumIsNearestTiesToEven : Obligations.FloatSumIsNearestTiesToEven := by
  intro nan a b ha hb r x
  obtain ⟨hfin, hinf, hnear⟩ := isNarrowed_add nan ha hb
  refine ⟨?finite, hinf, fun hx => ?sign, fun hr c hc => ?nearest⟩
  case finite => simpa using hfin
  case sign =>
    show f32Neg (f32Add nan a b) = _
    rw [f32Add_of_finite nan ha hb hx, f32Neg_pack_round]
  case nearest => simpa using hnear hr c hc

/-- Settles O38: the product is narrowed from the exact product of the magnitudes, in units of 2^-298. -/
theorem floatProductIsNearestTiesToEven : Obligations.FloatProductIsNearestTiesToEven := by
  intro nan a b ha hb r x
  have hr : r = f32Pack (f32Neg a != f32Neg b) (f32RoundMag (f32Mag a * f32Mag b) (2 ^ 149)) :=
    f32Mul_of_finite nan ha hb
  obtain ⟨hfin, hinf, hnear⟩ := hr ▸ isNarrowed_pack (by positivity) (f32Units_mul a b)
  refine ⟨?finite, hinf, ?sign, fun hf c hc => ?nearest⟩
  case finite => exact_mod_cast hfin
  case sign => rw [hr, f32Neg_pack_round, Bool.bne_eq_xor]
  case nearest => exact_mod_cast hnear hf c hc

theorem f32IsZero_of_units_ne_zero {b : Word} (h : f32Units b ≠ 0) : f32IsZero b = false := by
  rw [← Bool.not_eq_true, ← f32Mag_eq_zero_iff]
  intro hm
  rw [f32Units, hm] at h
  simp at h

/-- The quotient of the magnitudes, with the sign of the quotient, has the divisor's magnitude for its
scale. -/
theorem isNarrowed_div (nan : Word) {a b : Word} (ha : f32IsFinite a = true)
    (hb : f32IsFinite b = true) (hz : f32Units b ≠ 0) :
    IsNarrowed (f32Div nan a b)
      (if (f32Neg a != f32Neg b) = true then -((f32Mag a * 2 ^ 149 : Nat) : Int)
        else (f32Mag a * 2 ^ 149 : Nat)) (f32Mag b) := by
  have hz' := f32IsZero_of_units_ne_zero hz
  have hpos : 0 < f32Mag b := Nat.pos_of_ne_zero fun h => by
    rw [f32Mag_eq_zero_iff, hz'] at h
    cases h
  rw [f32Div_of_finite nan ha hb hz']
  exact isNarrowed_pack hpos rfl

/-- The distance from `u` to the quotient, scaled by the divisor or by its magnitude: the sign of the
divisor changes both sides of the difference. -/
theorem scaled_distance (a b : Word) (u : Int) :
    |u * f32Mag b - (if (f32Neg a != f32Neg b) = true then -((f32Mag a * 2 ^ 149 : Nat) : Int)
      else (f32Mag a * 2 ^ 149 : Nat))| = |u * f32Units b - f32Units a * 2 ^ 149| := by
  unfold f32Units
  cases f32Neg a <;> cases f32Neg b <;> push_cast <;> simp
  · rw [← abs_neg]
    congr 1
    ring
  · rw [← abs_neg]
    congr 1
    ring

/-- Settles O39: the quotient of the magnitudes, read with the divisor's sign. -/
theorem floatQuotientIsNearestTiesToEven : Obligations.FloatQuotientIsNearestTiesToEven := by
  intro nan a b ha hb hz r x
  obtain ⟨hfin, hinf, hnear⟩ := isNarrowed_div nan ha hb hz
  have hdist := scaled_distance a b
  have habs := hdist 0
  simp only [zero_mul, zero_sub, abs_neg] at habs
  refine ⟨?finite, hinf, ?sign, fun hf c hc => ?nearest⟩
  case finite => rw [hfin, f32Mag_cast, habs]
  case sign =>
    show f32Neg (f32Div nan a b) = _
    rw [f32Div_of_finite nan ha hb (f32IsZero_of_units_ne_zero hz), f32Neg_pack_round, Bool.bne_eq_xor]
  case nearest =>
    obtain ⟨hle, htie⟩ := hnear hf c hc
    rw [hdist, hdist] at hle htie
    exact ⟨hle, htie⟩

/-- Settles O56: an integer is a quotient with the divisor 1, of at most 2^63 in magnitude. -/
theorem integerConversionIsNearestTiesToEven : Obligations.IntegerConversionIsNearestTiesToEven := by
  intro z hz r x
  have hx : (if decide (z < 0) = true then -((z.natAbs * 2 ^ 149 : Nat) : Int)
      else (z.natAbs * 2 ^ 149 : Nat)) = x := by
    show _ = z * 2 ^ 149
    simp only [decide_eq_true_eq]
    split <;> omega
  rw [Int.abs_eq_natAbs] at hz
  have hf : f32IsFinite r = true := (f32OfInt_le z (by omega)).1
  have hn : IsNarrowed r x 1 := isNarrowed_pack (by decide) hx
  refine ⟨hf, f32Neg_pack_round _ _ _, ?zero, fun c hc => ?nearest⟩
  case zero =>
    show z = 0 → f32OfInt z = 0#32
    rintro rfl
    decide
  case nearest => simpa using hn.nearest hf c hc

/-! ### Zeros, infinities and NaNs -/

section
variable {x y : Word}

theorem f32IsInf_not (h : f32IsInf x = true) : f32IsNaN x = false ∧ f32IsZero x = false := by
  rw [f32IsInf_iff] at h
  constructor
  · rw [Bool.eq_false_iff, ne_eq, f32IsNaN_iff, h]
    exact Nat.lt_irrefl _
  · rw [Bool.eq_false_iff, ne_eq, f32IsZero_iff, h]
    decide

theorem f32IsFinite_of_isZero (h : f32IsZero x = true) : f32IsFinite x = true := by
  rw [f32IsFinite_iff, (f32IsZero_iff x).mp h]
  decide

/-- There is one infinity of each sign. -/
theorem eq_of_isInf (hx : f32IsInf x = true) (hy : f32IsInf y = true) (h : f32Neg x = f32Neg y) :
    x = y := by
  rw [f32IsInf_iff] at hx hy
  rw [Bool.eq_iff_iff, f32Neg_iff, f32Neg_iff] at h
  have := x.isLt
  have := y.isLt
  apply BitVec.eq_of_toNat_eq
  omega

end

theorem f32IsInf_pack (neg : Bool) : f32IsInf (f32Pack neg f32InfMag) = true := by
  cases neg <;> decide

theorem f32Neg_pack_inf (neg : Bool) : f32Neg (f32Pack neg f32InfMag) = neg :=
  f32Neg_pack (by decide)

theorem f32IsZero_pack (neg : Bool) : f32IsZero (f32Pack neg 0) = true := by
  cases neg <;> decide

theorem f32Neg_pack_zero (neg : Bool) : f32Neg (f32Pack neg 0) = neg :=
  f32Neg_pack (by decide)

section
variable {a b : Word} (nan : Word)

theorem f32Add_of_nan (h : f32IsNaN a = true ∨ f32IsNaN b = true) : f32Add nan a b = nan := by
  simp [f32Add, h]

theorem f32Mul_of_nan (h : f32IsNaN a = true ∨ f32IsNaN b = true) : f32Mul nan a b = nan := by
  simp [f32Mul, h]

theorem f32Div_of_nan (h : f32IsNaN a = true ∨ f32IsNaN b = true) : f32Div nan a b = nan := by
  simp [f32Div, h]

theorem f32Add_inf_inf (ha : f32IsInf a = true) (hb : f32IsInf b = true) :
    f32Add nan a b = if f32Neg a ≠ f32Neg b then nan else a := by
  simp [f32Add, f32IsInf_not ha, f32IsInf_not hb, ha, hb]

theorem f32Add_inf_finite (ha : f32IsInf a = true) (hb : f32IsFinite b = true) :
    f32Add nan a b = a := by
  simp [f32Add, f32IsInf_not ha, f32IsFinite_not hb, ha]

theorem f32Add_finite_inf (ha : f32IsFinite a = true) (hb : f32IsInf b = true) :
    f32Add nan a b = b := by
  simp [f32Add, f32IsFinite_not ha, f32IsInf_not hb, hb]

theorem f32Mul_inf_zero (ha : f32IsInf a = true) (hb : f32IsZero b = true) :
    f32Mul nan a b = nan ∧ f32Mul nan b a = nan := by
  simp [f32Mul, f32IsInf_not ha, f32IsFinite_not (f32IsFinite_of_isZero hb), ha, hb]

theorem f32Mul_inf (ha : f32IsInf a = true) (hn : f32IsNaN b = false) (hz : f32IsZero b = false) :
    f32Mul nan a b = f32Pack (f32Neg a != f32Neg b) f32InfMag ∧
    f32Mul nan b a = f32Pack (f32Neg a != f32Neg b) f32InfMag := by
  simp [f32Mul, f32IsInf_not ha, hn, hz, ha, bne_comm (a := f32Neg b)]

theorem f32Div_inf_inf (ha : f32IsInf a = true) (hb : f32IsInf b = true) : f32Div nan a b = nan := by
  simp [f32Div, f32IsInf_not ha, f32IsInf_not hb, ha, hb]

theorem f32Div_inf_finite (ha : f32IsInf a = true) (hb : f32IsFinite b = true) :
    f32Div nan a b = f32Pack (f32Neg a != f32Neg b) f32InfMag := by
  simp [f32Div, f32IsInf_not ha, f32IsFinite_not hb, ha]

theorem f32Div_finite_inf (ha : f32IsFinite a = true) (hb : f32IsInf b = true) :
    f32Div nan a b = f32Pack (f32Neg a != f32Neg b) 0 := by
  simp [f32Div, f32IsFinite_not ha, f32IsInf_not hb, hb]

theorem f32Div_by_zero (ha : f32IsFinite a = true) (hb : f32IsZero b = true) :
    f32Div nan a b =
      if f32IsZero a = true then nan else f32Pack (f32Neg a != f32Neg b) f32InfMag := by
  simp [f32Div, f32IsFinite_not ha, f32IsFinite_not (f32IsFinite_of_isZero hb), hb]

end

/-- Settles O40: the branches of the three operations that answer the word supplied. -/
theorem invalidFloatOperationsGiveTheFreeNaN :
    Obligations.InvalidFloatOperationsGiveTheFreeNaN := by
  refine ⟨freeNaN_isNaN, fun nan a b => ⟨fun h => ?operand, fun ha hb hs => ?sum,
    f32Mul_inf_zero nan, fun ha hb => ?zeros, f32Div_inf_inf nan⟩⟩
  case operand => exact ⟨f32Add_of_nan nan h, f32Mul_of_nan nan h, f32Div_of_nan nan h⟩
  case sum => rw [f32Add_inf_inf nan ha hb, if_pos hs]
  case zeros => rw [f32Div_by_zero nan (f32IsFinite_of_isZero ha) hb, if_pos ha]

/-! ### A tick with an infinity (43_speed_controller.md R172 (e)) -/

theorem f32Mag_le_of_finite {x : Word} (h : f32IsFinite x = true) :
    f32Mag x ≤ (2 ^ 24 - 1) * 2 ^ 253 := by
  have hmax : patternMag 0x7F7FFFFF = (2 ^ 24 - 1) * 2 ^ 253 := by decide
  rw [f32IsFinite_iff] at h
  rw [f32Mag_eq, ← hmax]
  exact patternMag_mono (Nat.le_of_lt_succ h)

/-- The increment of a tick is finite when the setpoint is. -/
theorem increment_finite (nan : Word) {a : Word} (ha : f32IsFinite a = true) :
    f32IsFinite (f32Div nan a 0x42C80000#32) = true := by
  have hmag : f32Mag 0x42C80000#32 = 100 * 2 ^ 149 := by decide
  rw [f32Div_of_finite nan ha (by decide) (by decide), hmag]
  refine (f32Pack_round_le _ _ _ ((2 ^ 24 - 1) * 2 ^ 253 / 100 + 1) (by decide) ?_ (by decide)).1
  calc f32Mag a * 2 ^ 149 ≤ (2 ^ 24 - 1) * 2 ^ 253 * 2 ^ 149 :=
        Nat.mul_le_mul_right _ (f32Mag_le_of_finite ha)
    _ ≤ ((2 ^ 24 - 1) * 2 ^ 253 / 100 + 1) * (100 * 2 ^ 149) := by decide

theorem increment_of_inf (nan : Word) {a : Word} (ha : f32IsInf a = true) :
    f32Div nan a 0x42C80000#32 = a := by
  rw [f32Div_inf_finite nan ha (by decide)]
  refine eq_of_isInf (f32IsInf_pack _) ha ?_
  rw [f32Neg_pack_inf, show f32Neg 0x42C80000#32 = false by decide, Bool.bne_false]

/-- Settles O57: the branches of the three operations for an infinity, a zero divisor and a zero sum, and
the two of them a tick can meet. -/
theorem infiniteOperandsGiveTheirResults : Obligations.InfiniteOperandsGiveTheirResults := by
  refine ⟨fun nan a b => ⟨fun ha hb => ?sum, fun ha hn hz => ?product, fun ha hb => ?quotient,
    fun ha hb => ?quotientByInf, fun ha hz hb => ?quotientByZero, fun ha hb h => ?zeroSum⟩,
    fun s => ⟨_, exec_tick s, fun ha hb => ?accel, fun ha hb => ?speed⟩⟩
  case sum =>
    rcases hb with hb | ⟨hb, hs⟩
    · exact ⟨f32Add_inf_finite nan ha hb, f32Add_finite_inf nan hb ha⟩
    · obtain rfl := eq_of_isInf hb ha hs
      rw [f32Add_inf_inf nan hb hb]
      simp
  case product =>
    obtain ⟨h, h'⟩ := f32Mul_inf nan ha hn hz
    rw [h, h', f32Neg_pack_inf, Bool.bne_eq_xor]
    exact ⟨f32IsInf_pack _, rfl, rfl⟩
  case quotient =>
    rw [f32Div_inf_finite nan ha hb, f32Neg_pack_inf, Bool.bne_eq_xor]
    exact ⟨f32IsInf_pack _, rfl⟩
  case quotientByInf =>
    rw [f32Div_finite_inf nan ha hb, f32Neg_pack_zero, Bool.bne_eq_xor]
    exact ⟨f32IsZero_pack _, rfl⟩
  case quotientByZero =>
    rw [f32Div_by_zero nan ha hb, if_neg (by simp [hz]), f32Neg_pack_inf, Bool.bne_eq_xor]
    exact ⟨f32IsInf_pack _, rfl⟩
  case zeroSum =>
    rw [f32Add_of_sum_zero nan ha hb h]
    cases f32Neg a <;> cases f32Neg b <;> rfl
  case accel =>
    rw [setSpeed_mot, State.draw_mot, State.setMot_mot, motionAfterTick_speed, increment_of_inf _ ha,
      f32Add_finite_inf _ hb ha]
  case speed =>
    rw [setSpeed_mot, State.draw_mot, State.setMot_mot, motionAfterTick_speed,
      f32Add_inf_finite _ hb (increment_finite _ ha)]

end Sys2Proof.Machine
end

section
/-! SUPPORT. Ticks: when the free values reach the motion registers, and runs of ticks
(43_speed_controller.md R172, R175, R176). -/

namespace Sys2Proof.Machine

/-! ### A result that is no NaN has used none -/

section
variable {nan a b : Word}

theorem f32Mul_of_not_nan (hn : f32IsNaN nan = true) (h : f32IsNaN (f32Mul nan a b) = false) :
    f32IsNaN a = false ∧ f32IsNaN b = false ∧ ∀ n, f32Mul n a b = f32Mul nan a b := by
  have hr : f32Mul nan a b ≠ nan := fun he => by rw [he, hn] at h; cases h
  refine ⟨?_, ?_, ?_⟩
  · exact Bool.eq_false_iff.mpr fun ha => hr (f32Mul_of_nan nan (.inl ha))
  · exact Bool.eq_false_iff.mpr fun hb => hr (f32Mul_of_nan nan (.inr hb))
  · rcases f32Mul_nan_or_indep a b with hall | hindep
    · exact absurd (hall nan) hr
    · exact fun n => hindep n nan

theorem f32Add_of_not_nan (hn : f32IsNaN nan = true) (h : f32IsNaN (f32Add nan a b) = false) :
    f32IsNaN b = false ∧ ∀ n, f32Add n a b = f32Add nan a b := by
  have hr : f32Add nan a b ≠ nan := fun he => by rw [he, hn] at h; cases h
  refine ⟨Bool.eq_false_iff.mpr fun hb => hr (f32Add_of_nan nan (.inr hb)), ?_⟩
  rcases f32Add_nan_or_indep a b with hall | hindep
  · exact absurd (hall nan) hr
  · exact fun n => hindep n nan

theorem f32Div_of_not_nan (hn : f32IsNaN nan = true) (h : f32IsNaN (f32Div nan a b) = false) (n : Word) :
    f32Div n a b = f32Div nan a b := by
  rcases f32Div_nan_or_indep a b with hall | hindep
  · rw [hall nan, hn] at h
    cases h
  · exact hindep n nan

end

/-- A speed that is no NaN has used neither of its NaNs. -/
theorem integrate_of_not_nan {nan1 nan2 accel speed : Word} (h1 : f32IsNaN nan1 = true)
    (h2 : f32IsNaN nan2 = true) (h : f32IsNaN (integrate nan1 nan2 accel speed) = false) (n m : Word) :
    integrate n m accel speed = integrate nan1 nan2 accel speed := by
  obtain ⟨hinc, hsum⟩ := f32Add_of_not_nan h2 h
  rw [integrate, f32Div_of_not_nan h1 hinc n]
  exact hsum m

/-- A product that is no NaN has used neither of its NaNs, and its speed is none. -/
theorem voltage_of_not_nan {nan1 nan2 speed : Word} {c : Config} (h1 : f32IsNaN nan1 = true)
    (h2 : f32IsNaN nan2 = true) (h : f32IsNaN (voltage nan1 nan2 c speed) = false) :
    f32IsNaN speed = false ∧ ∀ n m, voltage n m c speed = voltage nan1 nan2 c speed := by
  obtain ⟨hgain, hspeed, hprod⟩ := f32Mul_of_not_nan h2 h
  obtain ⟨-, -, hg⟩ := f32Mul_of_not_nan h1 hgain
  refine ⟨hspeed, fun n m => ?_⟩
  rw [voltage, hg n]
  exact hprod m

theorem roundI32_of_domain {x : Word} (h : roundI32Domain x = true) (any any' : Word) :
    roundI32 any x = roundI32 any' x := by
  simp [roundI32, h]

/-- A tick whose product lies in the domain of the rounding uses no free value for the motion registers. -/
theorem motionAfterTick_of_domain {c : Config} {n : Nat} {m : Motion}
    (h : roundI32Domain
      (voltage (freeNaN (n + 2)) (freeNaN (n + 3)) c (motionAfterTick c n m).speed) = true) (k : Nat) :
    motionAfterTick c k m = motionAfterTick c n m := by
  obtain ⟨hspeed, hvolt⟩ :=
    voltage_of_not_nan (freeNaN_isNaN _) (freeNaN_isNaN _) (f32IsNaN_of_domain h)
  have hint := integrate_of_not_nan (freeNaN_isNaN _) (freeNaN_isNaN _) hspeed (freeNaN k)
    (freeNaN (k + 1))
  simp only [motionAfterTick, hint, Motion.mk.injEq, true_and]
  exact (congrArg (roundI32 _) (hvolt _ _)).trans (roundI32_of_domain h _ _)

/-- Settles O35: the motion registers agree, so the two runs end in SETSPEED of one command; with a valid
vector it sends the words of one entry. -/
theorem freeValuesDoNotReachDefinedMotion : Obligations.FreeValuesDoNotReachDefinedMotion := by
  intro s t u n ht hu hdom
  rw [exec_tick] at ht hu
  cases ht
  cases hu
  rw [setSpeed_mot] at hdom
  have hm := motionAfterTick_of_domain hdom n
  simp only [hm]
  refine ⟨?invalid, fun h0 h7 => ?valid⟩
  case invalid =>
    rw [setSpeed_frame _ (({ s with draws := n } : State).setMot _ |>.draw 5)]
    conv_rhs => rw [setSpeed_frame]
    rfl
  case valid =>
    obtain ⟨e, he, hrun⟩ := setSpeed_of_valid (motionAfterTick s.cfg s.draws s.mot).vcmd
      ((s.setMot (motionAfterTick s.cfg s.draws s.mot)).draw 5) h0 h7
    have hrun' : setSpeed (motionAfterTick s.cfg s.draws s.mot).vcmd
        ((({ s with draws := n } : State).setMot (motionAfterTick s.cfg s.draws s.mot)).draw 5) = _ :=
      commutate_of_entry he
    rw [hrun, hrun']
    rfl

/-! ### Runs of ticks -/

theorem execAll_ticks_induct {P : Nat → State → Prop} {s : State} (n : Nat)
    (h : ∀ k s, P k s → ∃ t, exec .tick s = .next t ∧ P (k + 1) t) (hs : P 0 s) :
    ∃ t, execAll (pseudoTicks n) s = .next t ∧ P n t := by
  have hrun := execAll_induct (is := pseudoTicks n)
    (fun i hi => List.eq_of_mem_replicate hi ▸ h) hs
  rwa [pseudoTicks, List.length_replicate, Nat.zero_add] at hrun

theorem increment_hundred (nan : Word) : f32Div nan 0x42C80000#32 0x42C80000#32 = 0x3F800000#32 := by
  rw [f32Div_of_finite nan (by decide) (by decide) (by decide)]
  decide

/-- The setpoint is 100.0 and the speed the number of ticks, while that is exact. -/
structure Counting (k : Nat) (t : State) : Prop where
  accel : t.mot.accel = 0x42C80000#32
  speed : k ≤ 2 ^ 24 → t.mot.speed = f32OfInt k

theorem counting_tick (k : Nat) (s : State) (h : Counting k s) :
    ∃ t, exec .tick s = .next t ∧ Counting (k + 1) t := by
  refine ⟨_, exec_tick s, ?accel, fun hk => ?speed⟩
  case accel => simpa [motionAfterTick] using h.accel
  case speed =>
    rw [setSpeed_mot, State.draw_mot, State.setMot_mot, motionAfterTick_speed, h.accel,
      increment_hundred, h.speed (Nat.le_of_succ_le hk), f32Add_one _ k hk]

/-- Settles O41: each tick adds 1.0, which is exact below 2^24. -/
theorem integrationOfAHundredIsExact : Obligations.IntegrationOfAHundredIsExact := by
  intro n s hn haccel hspeed
  have h0 : f32OfInt (0 : Nat) = 0#32 := by decide
  obtain ⟨t, ht, haccel', hspeed'⟩ := execAll_ticks_induct n counting_tick
    ⟨haccel, fun _ => hspeed.trans h0.symm⟩
  refine ⟨t, ht, haccel', ?_⟩
  rw [hspeed' hn]
  rcases Nat.lt_or_eq_of_le hn with hlt | rfl
  · exact f32Units_ofInt n hlt
  · decide

/-! ### A zero command (43_speed_controller.md R176) -/

section
variable {x y : Word}

theorem f32Units_of_isZero (h : f32IsZero x = true) : f32Units x = 0 := by
  rw [f32Units, (f32Mag_eq_zero_iff x).mpr h]
  simp

/-- The sum of two zeros is +0.0 unless both are negative (log 10). -/
theorem f32Add_zeros (nan : Word) (hx : f32IsZero x = true) (hy : f32IsZero y = true) :
    f32Add nan x y = f32Pack (f32Neg x && f32Neg y) 0 :=
  f32Add_of_sum_zero nan (f32IsFinite_of_isZero hx) (f32IsFinite_of_isZero hy)
    (by rw [f32Units_of_isZero hx, f32Units_of_isZero hy, Int.add_zero])

theorem increment_isZero (nan : Word) (hx : f32IsZero x = true) :
    f32IsZero (f32Div nan x 0x42C80000#32) = true := by
  rw [f32Div_of_finite nan (f32IsFinite_of_isZero hx) (by decide) (by decide),
    (f32Mag_eq_zero_iff x).mpr hx, Nat.zero_mul, f32RoundMag_zero]
  exact f32IsZero_pack _

theorem f32Mul_isZero (nan : Word) (hx : f32IsFinite x = true) (hy : f32IsZero y = true) :
    f32IsZero (f32Mul nan x y) = true := by
  rw [f32Mul_of_finite nan hx (f32IsFinite_of_isZero hy), (f32Mag_eq_zero_iff y).mpr hy, Nat.mul_zero,
    f32RoundMag_zero]
  exact f32IsZero_pack _

theorem roundI32_of_isZero (any : Word) (h : f32IsZero x = true) : roundI32 any x = 0#32 := by
  rcases eq_zero_of_f32IsZero h with rfl | rfl
  · exact roundI32_of_domain (by decide) any 0#32
  · exact roundI32_of_domain (by decide) any 0#32

end

/-- A tick with a zero setpoint, a zero speed and a finite gain. -/
theorem motionAfterTick_of_zero {c : Config} {m : Motion} (ha : f32IsZero m.accel = true)
    (hs : f32IsZero m.speed = true)
    (hg : ∀ nan, f32IsFinite (f32Mul nan c.pwmVoltsRatio c.motorSpeedConstant) = true) (n : Nat) :
    f32IsZero (motionAfterTick c n m).speed = true ∧
    (m.speed = 0#32 → (motionAfterTick c n m).speed = 0#32) ∧
    (motionAfterTick c n m).vcmd = 0#32 := by
  have hspeed : (motionAfterTick c n m).speed =
      f32Pack (f32Neg m.speed && f32Neg (f32Div (freeNaN n) m.accel 0x42C80000#32)) 0 := by
    rw [motionAfterTick_speed, f32Add_zeros _ hs (increment_isZero _ ha)]
  have hzero : f32IsZero (motionAfterTick c n m).speed = true := hspeed ▸ f32IsZero_pack _
  refine ⟨hzero, fun h => ?_, roundI32_of_isZero _ (f32Mul_isZero _ (hg _) hzero)⟩
  rw [hspeed, h, show f32Neg 0#32 = false by decide, Bool.false_and]
  rfl

/-- SETSPEED only appends to the words sent. -/
theorem setSpeed_emitted_append (d : Word) (s : State) :
    ∃ ws, (setSpeed d s).emitted = s.emitted ++ ws := by
  simp only [setSpeed, commutate]
  split
  · exact ⟨_, rfl⟩
  · exact ⟨_, rfl⟩

/-- Every duty register of the driver is 0. -/
def DutiesZero (d : Driver) : Prop :=
  ∀ c, dutyGet d.dutyS c = 0#32 ∧ dutyGet d.dutyA c = 0#32

theorem dutyMagnitude_zero : dutyMagnitude 0#32 = 0#31 := by decide

/-- The words of a zero command carry no duty but 0. -/
theorem duty_of_mem_commutationWords_zero {e : Entry} {c : Channel} {v : Word}
    (h : .duty c v ∈ commutationWords e 0#31) : v = 0#32 := by
  have h' : (c = e.hi ∧ v = 0#32) ∨ (c = e.lo ∧ v = 0#32) := by simpa [commutationWords] using h
  exact h'.elim And.right And.right

theorem dutiesZero_commutationWords (p : Nat) (e : Entry) {d : Driver} (h : DutiesZero d) :
    DutiesZero (portRun p (commutationWords e 0#31) d) := by
  intro c
  rw [portRun_commutationWords_dutyA, portRun_commutationWords_dutyS]
  simp [(h c).1]

/-- SETSPEED of 0 appends to the words sent, with a valid vector stored no duty but 0. -/
theorem setSpeed_zero_words (s : State) : ∃ ws, (setSpeed 0#32 s).emitted = s.emitted ++ ws ∧
    (s.enc.prev ≠ 0#3 → s.enc.prev ≠ 7#3 → ∀ c v, .duty c v ∈ ws → v = 0#32) := by
  by_cases hv : s.enc.prev ≠ 0#3 ∧ s.enc.prev ≠ 7#3
  · obtain ⟨e, -, hrun⟩ := setSpeed_of_valid 0#32 s hv.1 hv.2
    rw [hrun, dutyMagnitude_zero]
    exact ⟨_, rfl, fun _ _ _ _ => duty_of_mem_commutationWords_zero⟩
  · obtain ⟨ws, hws⟩ := setSpeed_emitted_append 0#32 s
    exact ⟨ws, hws, fun h0 h7 => absurd ⟨h0, h7⟩ hv⟩

theorem dutiesZero_setSpeed_zero {s : State} (h0 : s.enc.prev ≠ 0#3) (h7 : s.enc.prev ≠ 7#3)
    (h : DutiesZero s.drv) : DutiesZero (setSpeed 0#32 s).drv := by
  obtain ⟨e, -, hrun⟩ := setSpeed_of_valid 0#32 s h0 h7
  rw [hrun, dutyMagnitude_zero]
  exact dutiesZero_commutationWords _ e h

/-- What a run of `k` ticks from `s` with a zero command has left at `t`. -/
structure ZeroRun (s : State) (k : Nat) (t : State) : Prop where
  cfg : t.cfg = s.cfg
  prev : t.enc.prev = s.enc.prev
  accel : t.mot.accel = s.mot.accel
  speed : f32IsZero t.mot.speed = true
  posZero : s.mot.speed = 0#32 → t.mot.speed = 0#32
  vcmd : 0 < k ∨ s.mot.vcmd = 0#32 → t.mot.vcmd = 0#32
  words : ∃ ws, t.emitted = s.emitted ++ ws ∧
    (s.enc.prev ≠ 0#3 → s.enc.prev ≠ 7#3 → ∀ c v, .duty c v ∈ ws → v = 0#32)
  duties : s.enc.prev ≠ 0#3 → s.enc.prev ≠ 7#3 → DutiesZero s.drv → DutiesZero t.drv

/-- Each tick of a zero command passes 0 to SETSPEED. -/
theorem zeroRun_tick {s : State} (ha : f32IsZero s.mot.accel = true)
    (hg : ∀ nan, f32IsFinite (f32Mul nan s.cfg.pwmVoltsRatio s.cfg.motorSpeedConstant) = true)
    (k : Nat) (t : State) (h : ZeroRun s k t) :
    ∃ u, exec .tick t = .next u ∧ ZeroRun s (k + 1) u := by
  obtain ⟨hcfg, hprev, haccel, hspeed, hpos, -, ⟨ws, hws, hzero⟩, hduties⟩ := h
  obtain ⟨hspeed', hpos', hvcmd'⟩ :=
    motionAfterTick_of_zero (n := t.draws) (haccel ▸ ha) hspeed (hcfg ▸ hg)
  obtain ⟨ws', hws', hzero'⟩ :=
    setSpeed_zero_words ((t.setMot (motionAfterTick t.cfg t.draws t.mot)).draw 5)
  refine ⟨_, exec_tick t, ?_⟩
  rw [hvcmd']
  refine ⟨?cfg, ?prev, ?accel, ?speed, fun h => ?posZero, fun _ => ?vcmd,
    ⟨ws ++ ws', ?words, fun h0 h7 c v hmem => ?zero⟩, fun h0 h7 hz => ?duties⟩
  case cfg => simpa using hcfg
  case prev => simpa using hprev
  case accel => simpa [motionAfterTick] using haccel
  case speed => simpa using hspeed'
  case posZero => simpa using hpos' (hpos h)
  case vcmd => simpa using hvcmd'
  case words => rw [hws', State.draw_emitted, State.setMot_emitted, hws, List.append_assoc]
  case zero =>
    rcases List.mem_append.mp hmem with hmem | hmem
    · exact hzero h0 h7 c v hmem
    · exact hzero' (hprev ▸ h0) (hprev ▸ h7) c v hmem
  case duties =>
    refine dutiesZero_setSpeed_zero (hprev ▸ h0) (hprev ▸ h7) ?_
    exact hduties h0 h7 hz

/-- Settles O42: by induction on the number of ticks. -/
theorem zeroCommandStaysZero : Obligations.ZeroCommandStaysZero := by
  intro n s ha hs hg
  obtain ⟨t, ht, -, -, haccel, hspeed, hpos, hvcmd, ⟨ws, hws, hzero⟩, hduties⟩ :=
    execAll_ticks_induct n (zeroRun_tick ha hg)
      ⟨rfl, rfl, rfl, hs, id, fun h => h.resolve_left (Nat.lt_irrefl 0), ⟨[], by simp⟩,
        fun _ _ => id⟩
  exact ⟨t, ws, ht, haccel, hspeed, hpos, hvcmd, hws, hzero, hduties⟩

end Sys2Proof.Machine
end
